-- ==== Sys2Proof/Word.lean ====
section
/-! DEFINITION. The word types of the CHIP-8 core: 8-bit bytes, 16-bit words, 4-bit register numbers
(spec/00_scope.md R5, R6). -/

namespace Sys2Proof

/-- A byte of memory, a general register or a timer (R5 `REG_WIDTH`, `TIMER_WIDTH`). -/
abbrev Byte := BitVec 8

/-- An instruction word, the index register, the program counter or a stack entry
(R5 `I_WIDTH`, `PC_WIDTH`, `STACK_ENTRY_WIDTH`). -/
abbrev Word := BitVec 16

/-- The number of a general register, V0 to VF: every value of the 4-bit field names a register (R22). -/
abbrev Reg := BitVec 4

end Sys2Proof
end

