-- ==== Sys2Proof/Config.lean ====
section
/-! DEFINITION. What is fixed for this hardware (the parameter table, spec/00_scope.md R5) and the free values:
the events and the inputs that the environment supplies and that no rule constrains (log entries 1 and 2). The sizes that shape a
type (16 registers, 16 stack slots, 64 by 32 pixels, 16 keys) stand in the types of Machine/State.lean. -/

namespace Sys2Proof

/-- R5 `MEM_SIZE`: bytes of memory, addresses 0x000 to 0xFFF. -/
def Config.memSize : Nat := 4096

/-- R5 `PROGRAM_START`: where pc points after reset. -/
def Config.programStart : Word := 0x0200

/-- R5 `FONT_BASE`: the address `Fx29` computes glyph addresses from (decision D21). -/
def Config.fontBase : Word := 0x0000

/-- R5 `FONT_GLYPH_BYTES`: bytes of one font glyph. -/
def Config.fontGlyphBytes : Word := 5

/-- R5 `SHIFT_USES_VY`: false on this hardware, so `8xy6` and `8xyE` shift V[x] in place (decision D14). -/
def Config.shiftUsesVy : Bool := false

/-- R5 `LOADSTORE_INCREMENTS_I`: false on this hardware, so `Fx55` and `Fx65` leave I unchanged (decision D22). -/
def Config.loadStoreIncrementsI : Bool := false

/-- What a byte of memory that no entry lists reads as: the reset contents 0x00 (R36). -/
def Config.unlistedByte : Byte := 0x00

namespace Machine

/-- The events of R10. -/
inductive Event where
  /-- One fetch-decode-execute with the sampled inputs (R100). -/
  | step (keys : BitVec 16) (rnd : Byte)
  /-- One pulse of the external timer clock (R214). -/
  | tick
  /-- The external stop signal (R211). -/
  | stop
  /-- The host hands over bytes to be stored from an address on (R63). -/
  | load (bytes : List Byte) (start : Nat)
  /-- Reset (R240). -/
  | reset
  deriving DecidableEq, Repr, Inhabited

end Machine

/-- FREE VALUE (log entry 1): the n-th event that `State.pending` does not give, where any event may come. R9: "Any
interleaving of Step, Tick and Stop events is a legal schedule". -/
opaque Config.freeEvent : Nat → Machine.Event

/-- FREE VALUE (log entry 2): the key vector of the n-th Step whose inputs `State.pending` does not give. R175: "The
value of keys at each Step is free". -/
opaque Config.freeKeys : Nat → BitVec 16

/-- FREE VALUE (log entry 2): the random byte of the n-th Step whose inputs `State.pending` does not give. R181: "a
model must let rnd be any byte at each Cxnn, independently". -/
opaque Config.freeRnd : Nat → Byte

end Sys2Proof
end

