-- ==== Sys2Proof/Machine/State.lean ====
section
/-! DEFINITION. The state of the machine as plain data (spec/10_state.md R20), the reasons a step can stop, and the state
after reset (R36, R240). -/

namespace Sys2Proof.Machine

/-- The memory of R50: the bytes that differ from what an unlisted address reads as (`Config.unlistedByte`), by strictly
rising address. -/
abbrev Memory := List Host.Cell

/-- The 64 by 32 grid of R30: entry y is row y (0 is the top), bit x of it is the pixel of column x (0 is the left). -/
abbrev Framebuffer := Vector (BitVec 64) 32

/-- The error codes of R200; their 3-bit numbers are `ErrorCode.bits`. -/
inductive ErrorCode where
  /-- 0: no error; also after `Stop`. -/
  | none
  /-- 1: a word matching no row of R85. -/
  | decodeError
  /-- 2: an address above 0xFFF. -/
  | outOfBoundsAccess
  /-- 3: a call with 16 entries on the stack. -/
  | stackOverflow
  /-- 4: a return with an empty stack. -/
  | stackUnderflow
  /-- 5: reported to the host by `Load`, never stored in `err`. -/
  | loadError
  deriving DecidableEq, Repr

/-- An error with the information it carries to the host (R200). -/
inductive Report where
  | decodeError (w : Word)
  | outOfBoundsAccess (addr : Nat)
  | stackOverflow
  | stackUnderflow
  | loadError (start len : Nat)
  deriving DecidableEq, Repr

/-- Which events follow where `State.pending` is empty, without end (log entry 1). -/
inductive Onward where
  /-- Steps only, with free inputs. -/
  | steps
  /-- Any events in any order: each is a free value (R9: "Any interleaving of Step, Tick and Stop events is a legal
  schedule"; R214: "any number of Tick events, zero included, between any two Steps"). -/
  | anything
  deriving DecidableEq, Repr

/-- The complete state of R20, and after it the model's own fields for the inputs, the output and the schedule that R21,
R34, R207 and R9 describe outside the state (log entries 1 to 3). -/
structure State where
  /-- Memory (R50). -/
  mem : Memory
  /-- General registers V0 to VF (R22, R23). -/
  v : Vector Byte 16
  /-- Index register I (R25). -/
  i : Word
  /-- Program counter (R26). -/
  pc : Word
  /-- Call-stack slots S[0] to S[15] (R29). -/
  stack : Vector Word 16
  /-- Number of valid stack entries, 0 to 16 (R29). -/
  sp : Fin 17
  /-- Delay timer (R31). -/
  dt : Byte
  /-- Sound timer (R31). -/
  st : Byte
  /-- FSM state: false is "ready to fetch", true is "halted" (R32). -/
  halted : Bool
  /-- The error recorded at the halt (R32). -/
  err : ErrorCode
  /-- The display (R30). -/
  fb : Framebuffer
  /-- MODEL: the key vector sampled by the current Step (R34, R175). -/
  keys : BitVec 16
  /-- MODEL: the random byte sampled by the current Step (R34, R181). -/
  rnd : Byte
  /-- MODEL: what the latest event reported to the host (R207). -/
  report : Option Report
  /-- MODEL: the next events, oldest first (R9). -/
  pending : List Event
  /-- MODEL: which events follow where `pending` is empty (R9, R214). -/
  onward : Onward
  /-- MODEL: how many free events have been drawn, the index of the free values (R9, R175, R181). -/
  draws : Nat
  deriving DecidableEq, Repr

/-- Why a step ends without a next state: never. Every error of R200 is a halt that the spec describes (R207), so it is a
next state, and no behaviour of this hardware is undefined: the type has no constructor (log entry 4). That is safe: no
run is cut short. -/
inductive Fault where
  deriving DecidableEq, Repr

/-- Why an instruction has no meaning. -/
inductive Refusal where
  /-- Raised only by an arm of `exec` whose instruction has no meaning yet, by its mnemonic. Safe: the run stops where
  the hardware goes on. No arm raises it now. -/
  | notModelled (mnemonic : String)
  deriving DecidableEq, Repr

/-- The outcome of a step or of an instruction. -/
abbrev Result := Host.Outcome State Fault Refusal

/-- The state after `Reset` (R36, R240); the model's own fields are empty or zero (log entries 1 to 3). -/
def State.reset : State where
  mem := []
  v := Vector.replicate 16 0x00
  i := 0x0000
  pc := Config.programStart
  stack := Vector.replicate 16 0x0000
  sp := 0
  dt := 0x00
  st := 0x00
  halted := false
  err := .none
  fb := Vector.replicate 32 0
  keys := 0x0000
  rnd := 0x00
  report := Option.none
  pending := []
  onward := .steps
  draws := 0

end Sys2Proof.Machine
end

