-- ==== Sys2Proof/Machine/Ops.lean ====
section
/-! DEFINITION. The named operations over memory, registers, the program counter and the call stack, and raising an
error: the one operation by which this hardware takes an exception (spec/60_exceptions.md R207). There is no return from
it but Reset (R212). -/

namespace Sys2Proof.Machine

/-! ## Memory (R50 to R58) -/

/-- The canonical form: addresses strictly rising and inside memory, no entry equal to what an unlisted address reads
as. -/
abbrev Memory.wf (m : Memory) : Prop :=
  m.Pairwise (fun c d => c.1 < d.1) ∧ ∀ c ∈ m, c.1 < Config.memSize ∧ c.2 ≠ Config.unlistedByte

/-- The byte at an address: the entry's, or `Config.unlistedByte` where none is listed (R36, R52). -/
def Memory.readByte (m : Memory) (a : Nat) : Byte :=
  match m with
  | [] => Config.unlistedByte
  | c :: m' => if c.1 = a then c.2 else Memory.readByte m' a

/-- An entry in front of a memory, left out where it says what an unlisted address reads as. -/
def Memory.consByte (a : Nat) (b : Byte) (m : Memory) : Memory :=
  if b = Config.unlistedByte then m else (a, b) :: m

/-- Store one byte and change no other (R53), keeping the canonical form. -/
def Memory.writeByte (m : Memory) (a : Nat) (b : Byte) : Memory :=
  match m with
  | [] => Memory.consByte a b []
  | c :: m' =>
    if c.1 < a then c :: Memory.writeByte m' a b
    else if c.1 = a then Memory.consByte a b m'
    else Memory.consByte a b (c :: m')

/-- The `n` bytes from `a` on, lowest address first (R55). -/
def Memory.readBytes (m : Memory) (a n : Nat) : List Byte := (List.range n).map fun k => m.readByte (a + k)

/-- Store bytes at ascending addresses from `a` on (R55). -/
def Memory.writeBytes (m : Memory) (a : Nat) (bs : List Byte) : Memory :=
  match bs with
  | [] => m
  | b :: bs' => Memory.writeBytes (m.writeByte a b) (a + 1) bs'

/-- The range check of R58 over the `n` bytes from `base` on: the lowest address of the range that is above 0xFFF, or
none where the whole range lies in memory. An empty range has no offending address (R161 (a)). -/
def firstOffending (base n : Nat) : Option Nat :=
  if n = 0 ∨ base + n ≤ Config.memSize then none else some (max base Config.memSize)

/-- Read `n` bytes from `base` on, or raise `OutOfBoundsAccess` with the first offending address (R52, R58); with
`n = 1` this is `MemRead`. -/
def State.readBlock (s : State) (base n : Nat) : Except Report (List Byte) :=
  match firstOffending base n with
  | some a => .error (.outOfBoundsAccess a)
  | none => .ok (s.mem.readBytes base n)

/-- Store bytes from `base` on, or raise `OutOfBoundsAccess` with the first offending address and store nothing (R53,
R58); with one byte this is `MemWrite`. -/
def State.writeBlock (s : State) (base : Nat) (bs : List Byte) : Except Report State :=
  match firstOffending base bs.length with
  | some a => .error (.outOfBoundsAccess a)
  | none => .ok { s with mem := s.mem.writeBytes base bs }

/-! ## Registers (R22 to R26) -/

/-- Read general register V[r]. -/
def State.getV (s : State) (r : Reg) : Byte := s.v[r.toNat]'r.isLt

/-- Write general register V[r]; none is hard-wired (R22). -/
def State.setV (s : State) (r : Reg) (b : Byte) : State := { s with v := s.v.set r.toNat b r.isLt }

/-- Write registers V[k], V[k+1], ... in that order, one for each byte (R150). -/
def State.setVs (s : State) (k : Nat) (bs : List Byte) : State :=
  match bs with
  | [] => s
  | b :: bs' => State.setVs (s.setV (BitVec.ofNat 4 k) b) (k + 1) bs'

/-- Write the index register; all 16 bits are kept (R25). -/
def State.setI (s : State) (w : Word) : State := { s with i := w }

/-- Write the program counter; all 16 bits are kept (R26). -/
def State.setPc (s : State) (w : Word) : State := { s with pc := w }

/-- Move pc on by one instruction: the advance of R102, and the 2 more of a skip (R117). -/
def State.advance (s : State) : State := s.setPc (s.pc + 2)

/-- Skip the next instruction if the condition holds (R117). -/
def State.skipIf (s : State) (c : Bool) : State := if c then s.advance else s

/-! ## Call stack (R29) -/

/-- Push a value, or raise `StackOverflow` where all 16 slots are valid (R29, R203). -/
def State.push (s : State) (w : Word) : Except Report State :=
  if h : s.sp.val < 16 then
    .ok { s with stack := s.stack.set s.sp.val w h, sp := ⟨s.sp.val + 1, by omega⟩ }
  else .error .stackOverflow

/-- Pop the newest entry, or raise `StackUnderflow` where there is none (R29, R204). The slot keeps its bits. -/
def State.pop (s : State) : Except Report (Word × State) :=
  match s.sp with
  | ⟨0, _⟩ => .error .stackUnderflow
  | ⟨k + 1, h⟩ => .ok (s.stack[k]'(by omega), { s with sp := ⟨k, by omega⟩ })

/-! ## Errors (R200, R207, R208) -/

/-- The 3-bit number of an error code (R200). -/
def ErrorCode.bits (e : ErrorCode) : BitVec 3 :=
  match e with
  | .none => 0
  | .decodeError => 1
  | .outOfBoundsAccess => 2
  | .stackOverflow => 3
  | .stackUnderflow => 4
  | .loadError => 5

/-- The code of an error (R200). -/
def Report.code (e : Report) : ErrorCode :=
  match e with
  | .decodeError _ => .decodeError
  | .outOfBoundsAccess _ => .outOfBoundsAccess
  | .stackOverflow => .stackOverflow
  | .stackUnderflow => .stackUnderflow
  | .loadError _ _ => .loadError

/-- Raise an error: halt, record the code, report it with its information, and change nothing else (R207, R208). The pc
is already where R208 wants it: pc0 at fetch, pc0 + 2 after the advance. -/
def State.raise (s : State) (e : Report) : State := { s with halted := true, err := e.code, report := some e }

/-- Go on with the value of an operation that may raise, or raise its error in the state before it, so that nothing of
the instruction takes effect (R208). -/
def State.attempt {α : Type} (s : State) (r : Except Report α) (f : α → State) : State :=
  match r with
  | .ok a => f a
  | .error e => s.raise e

end Sys2Proof.Machine
end

