-- ==== Sys2Proof/Machine/Flags.lean ====
section
/-! DEFINITION. VF, the only flag (spec/10_state.md R23, R24): the value each flag writer gives it, and the one order of
the two writes, result first and flag last (spec/42_load_alu.md R137). -/

namespace Sys2Proof.Machine

/-- Register VF (R23). -/
def vf : Reg := 0xF

/-- A flag's value: 1 or 0. -/
def flagByte (c : Bool) : Byte := if c then 1 else 0

/-- The carry of `8xy4`: the exact sum is above 255 (R131). -/
def carryOut (a b : Byte) : Bool := 255 < a.toNat + b.toNat

/-- No borrow of `8xy5` and `8xy7`: the minuend is at least the subtrahend, unsigned (R132, R134). -/
def noBorrow (a b : Byte) : Bool := b.toNat ≤ a.toNat

/-- The bit `8xy6` shifts out: bit 0 of the operand (R133). -/
def shiftedOutRight (a : Byte) : Bool := a.getLsbD 0

/-- The bit `8xyE` shifts out: bit 7 of the operand (R135). -/
def shiftedOutLeft (a : Byte) : Bool := a.getLsbD 7

/-- Write VF as a flag. -/
def State.setFlag (s : State) (c : Bool) : State := s.setV vf (flagByte c)

/-- Write a result and then VF, so that with x = 15 the flag survives (R23, R137). -/
def State.setResultAndFlag (s : State) (x : Reg) (result : Byte) (c : Bool) : State := (s.setV x result).setFlag c

end Sys2Proof.Machine
end

