-- ==== Sys2Proof/Machine/Operands.lean ====
section
/-! DEFINITION. The operand forms (spec/30_encoding.md R83 and the rules of the instructions): how an immediate, a
register or the index register is turned into an address, a position, a key number or the bytes of a block. -/

namespace Sys2Proof.Machine

/-- `zext_16(nnn)`: an absolute address in 0x000 to 0xFFF (R83). -/
def addressOf (nnn : BitVec 12) : Word := nnn.setWidth 16

/-- `zext_16(V[r])` (R118, R146). -/
def State.offsetV (s : State) (r : Reg) : Word := (s.getV r).setWidth 16

/-- The operand of a shift: V[x], or V[y] under the parameter `SHIFT_USES_VY` (R133, R135). -/
def State.shiftOperand (s : State) (x y : Reg) : Byte := if Config.shiftUsesVy then s.getV y else s.getV x

/-- `V[x][3:0]`: a key number or a font digit; the upper nibble is ignored (R147, R176). -/
def State.lowNibble (s : State) (x : Reg) : BitVec 4 := (s.getV x).extractLsb' 0 4

/-- `FONT_BASE + 5 * d`: the address of the glyph of a digit (R147). -/
def glyphAddress (d : BitVec 4) : Word := Config.fontBase + Config.fontGlyphBytes * d.setWidth 16

/-- `V[x] mod 64`: the column of a sprite (R161, R164). -/
def State.spriteColumn (s : State) (x : Reg) : BitVec 6 := (s.getV x).extractLsb' 0 6

/-- `V[y] mod 32`: the row of a sprite (R161, R164). -/
def State.spriteRow (s : State) (y : Reg) : BitVec 5 := (s.getV y).extractLsb' 0 5

/-- Registers V0 to Vx, in that order: x is a count here (R149). -/
def State.regsUpTo (s : State) (x : Reg) : List Byte := (List.range (x.toNat + 1)).map fun k => s.getV (BitVec.ofNat 4 k)

/-- The three decimal digits of a byte, hundreds first (R148). -/
def decimalDigits (b : Byte) : List Byte := [b / 100, b / 10 % 10, b % 10]

/-- `I` after a block transfer of x + 1 bytes: unchanged, or I + x + 1 under the parameter `LOADSTORE_INCREMENTS_I`
(R149, R150). -/
def State.indexAfterBlock (s : State) (x : Reg) : Word :=
  if Config.loadStoreIncrementsI then s.i + x.setWidth 16 + 1 else s.i

/-- The lowest-numbered key that is down, or none where `keys = 0x0000` (R183). -/
def lowestKey (keys : BitVec 16) : Option (BitVec 4) :=
  ((List.range 16).find? fun k => keys.getLsbD k).map (BitVec.ofNat 4)

/-- `is_key_down(k)` of the sampled key vector (R175). -/
def State.keyDown (s : State) (k : BitVec 4) : Bool := s.keys.getLsbD k.toNat

end Sys2Proof.Machine
end

