-- ==== Sys2Proof/Machine/Control.lean ====
section
/-! DEFINITION. Control transfer (spec/41_control_flow.md): return, jumps, call and the register skips. On entry pc is
already pc0 + 2 (R102). -/

namespace Sys2Proof.Machine

/-- `00EE` (R110): pop the call stack into pc. -/
def execRet (s : State) : Result := .next (s.attempt s.pop fun p => p.2.setPc p.1)

/-- `1nnn` (R111): absolute jump. -/
def execJp (nnn : BitVec 12) (s : State) : Result := .next (s.setPc (addressOf nnn))

/-- `2nnn` (R112): push the advanced pc, then jump. -/
def execCall (nnn : BitVec 12) (s : State) : Result := .next (s.attempt (s.push s.pc) fun t => t.setPc (addressOf nnn))

/-- `3xnn` (R113): skip if V[x] = nn. -/
def execSeImm (x : Reg) (nn : Byte) (s : State) : Result := .next (s.skipIf (s.getV x == nn))

/-- `4xnn` (R114): skip if V[x] differs from nn. -/
def execSneImm (x : Reg) (nn : Byte) (s : State) : Result := .next (s.skipIf (s.getV x != nn))

/-- `5xy0` (R115): skip if V[x] = V[y]. -/
def execSeReg (x y : Reg) (s : State) : Result := .next (s.skipIf (s.getV x == s.getV y))

/-- `9xy0` (R116): skip if V[x] and V[y] differ. -/
def execSneReg (x y : Reg) (s : State) : Result := .next (s.skipIf (s.getV x != s.getV y))

/-- `Bnnn` (R118): jump to nnn + V0, 16 bits wide and not reduced modulo 4096. -/
def execJpV0 (nnn : BitVec 12) (s : State) : Result := .next (s.setPc (addressOf nnn + s.offsetV 0))

end Sys2Proof.Machine
end

