-- ==== Sys2Proof/Machine/Draw.lean ====
section
/-! DEFINITION. The framebuffer draw unit (spec/44_display.md R160 to R166): pixels, clear, and `draw_sprite` as R162
writes it, one toggle at a time. Columns are 6-bit and rows 5-bit numbers, so that adding to one wraps modulo 64 or 32
(R164). -/

namespace Sys2Proof.Machine

/-- The pixel at column x, row y: true is on (R30). -/
def Framebuffer.pixel (fb : Framebuffer) (x : BitVec 6) (y : BitVec 5) : Bool := (fb[y.toNat]'y.isLt).getLsbD x.toNat

/-- Turn the pixel at column x, row y over, and no other (R162). -/
def Framebuffer.toggle (fb : Framebuffer) (x : BitVec 6) (y : BitVec 5) : Framebuffer :=
  fb.set y.toNat (fb[y.toNat]'y.isLt ^^^ BitVec.twoPow 64 x.toNat) y.isLt

/-- All pixels off (R160). -/
def Framebuffer.clear : Framebuffer := Vector.replicate 32 0

/-- A drawing under way: the framebuffer so far, and whether a pixel went from on to off (R162). -/
structure Drawing where
  fb : Framebuffer
  collision : Bool
  deriving DecidableEq, Repr

/-- One sprite bit at column x, row y: a 0 leaves the pixel alone, a 1 toggles it and collides where it was on (R162). -/
def Drawing.plot (d : Drawing) (x : BitVec 6) (y : BitVec 5) (bit : Bool) : Drawing :=
  if bit then { fb := d.fb.toggle x y, collision := d.collision || d.fb.pixel x y } else d

/-- One sprite byte at row y: bit b counts from the most significant one and is drawn at column x + b (R162). -/
def Drawing.plotRow (d : Drawing) (x : BitVec 6) (y : BitVec 5) (byte : Byte) : Drawing :=
  (List.range 8).foldl (fun d b => d.plot (x + BitVec.ofNat 6 b) y (byte.getLsbD (7 - b))) d

/-- The sprite bytes one row below the other (R162). -/
def Drawing.plotRows (d : Drawing) (x : BitVec 6) (y : BitVec 5) (rows : List Byte) : Drawing :=
  match rows with
  | [] => d
  | byte :: rows' => Drawing.plotRows (d.plotRow x y byte) x (y + 1) rows'

/-- `draw_sprite(x, y, rows)` (R162). -/
def drawSprite (fb : Framebuffer) (x : BitVec 6) (y : BitVec 5) (rows : List Byte) : Drawing :=
  Drawing.plotRows { fb := fb, collision := false } x y rows

end Sys2Proof.Machine
end

