-- ==== Sys2Proof/Machine/Display.lean ====
section
/-! DEFINITION. The display instructions (spec/44_display.md): clear screen and draw sprite. -/

namespace Sys2Proof.Machine

/-- Take over what the draw unit answers: the new framebuffer, then VF := collision, last (R161, R166). -/
def State.putDrawing (s : State) (d : Drawing) : State := State.setFlag { s with fb := d.fb } d.collision

/-- `00E0` (R160): all pixels off, no flag. -/
def execCls (s : State) : Result := .next { s with fb := Framebuffer.clear }

/-- `Dxyn` (R161): read the n sprite bytes at I, draw them at (V[x] mod 64, V[y] mod 32), and write VF last. The position
is read before VF is written, and with n = 0 nothing is read, so nothing can fault. -/
def execDrw (x y : Reg) (n : BitVec 4) (s : State) : Result :=
  .next (s.attempt (s.readBlock s.i.toNat n.toNat) fun rows =>
    s.putDrawing (drawSprite s.fb (s.spriteColumn x) (s.spriteRow y) rows))

end Sys2Proof.Machine
end

