-- ==== Sys2Proof/Machine/Index.lean ====
section
/-! DEFINITION. Index register and memory instructions (spec/43_index_memory.md). The address of element k is I + k,
unsigned and never wrapped; the range check comes first and a failing one abandons the whole instruction (R152). None
writes a flag. -/

namespace Sys2Proof.Machine

/-- `Annn` (R145). -/
def execLdI (nnn : BitVec 12) (s : State) : Result := .next (s.setI (addressOf nnn))

/-- `Fx1E` (R146): 16-bit add modulo 65536, no flag. -/
def execAddI (x : Reg) (s : State) : Result := .next (s.setI (s.i + s.offsetV x))

/-- `Fx29` (R147): the address of the glyph of the low nibble. -/
def execLdF (x : Reg) (s : State) : Result := .next (s.setI (glyphAddress (s.lowNibble x)))

/-- `Fx33` (R148): three decimal digits at I, I + 1, I + 2. -/
def execLdB (x : Reg) (s : State) : Result :=
  .next (s.attempt (s.writeBlock s.i.toNat (decimalDigits (s.getV x))) fun t => t)

/-- `Fx55` (R149): store V0 to Vx from I on. -/
def execStRegs (x : Reg) (s : State) : Result :=
  .next (s.attempt (s.writeBlock s.i.toNat (s.regsUpTo x)) fun t => t.setI (s.indexAfterBlock x))

/-- `Fx65` (R150): load V0 to Vx from I on. -/
def execLdRegs (x : Reg) (s : State) : Result :=
  .next (s.attempt (s.readBlock s.i.toNat (x.toNat + 1)) fun bs => (s.setVs 0 bs).setI (s.indexAfterBlock x))

end Sys2Proof.Machine
end

