-- ==== Sys2Proof/Machine/Input.lean ====
section
/-! DEFINITION. Keypad, timer and random instructions (spec/45_keypad_timers_random.md). They read the inputs sampled by
the Step, `keys` and `rnd` (R175, R181). None writes a flag, touches memory or raises. -/

namespace Sys2Proof.Machine

/-- `Ex9E` (R176): skip if the key of the low nibble is down. -/
def execSkp (x : Reg) (s : State) : Result := .next (s.skipIf (s.keyDown (s.lowNibble x)))

/-- `ExA1` (R177): skip if the key of the low nibble is up. -/
def execSknp (x : Reg) (s : State) : Result := .next (s.skipIf (!s.keyDown (s.lowNibble x)))

/-- `Fx07` (R178). -/
def execLdVxDt (x : Reg) (s : State) : Result := .next (s.setV x s.dt)

/-- `Fx0A` (R183): the lowest key down goes to V[x]; with no key down pc goes back by 2, so that the instruction is
fetched again. -/
def execLdVxK (x : Reg) (s : State) : Result :=
  .next (match lowestKey s.keys with
    | some k => s.setV x (k.setWidth 8)
    | none => s.setPc (s.pc - 2))

/-- `Fx15` (R179). -/
def execLdDtVx (x : Reg) (s : State) : Result := .next { s with dt := s.getV x }

/-- `Fx18` (R180). -/
def execLdStVx (x : Reg) (s : State) : Result := .next { s with st := s.getV x }

/-- `Cxnn` (R182): the random byte under the mask nn. -/
def execRnd (x : Reg) (nn : Byte) (s : State) : Result := .next (s.setV x (s.rnd &&& nn))

end Sys2Proof.Machine
end

