-- ==== Sys2Proof/Syntax.lean ====
section
/-! DEFINITION. The instructions: one constructor per row of spec/opcode_table.json, with the operands of
spec/30_encoding.md R81 to R83 (register numbers x and y, immediates n, nn and nnn). The mnemonic of each row stands
in LAWS.json. -/

namespace Sys2Proof

/-- The 34 instructions of R85, in the table's order. -/
inductive Instr where
  /-- `00E0` CLS, clear screen (R160). -/
  | cls
  /-- `00EE` RET, return from subroutine (R110). -/
  | ret
  /-- `1nnn` JP nnn, jump (R111). -/
  | jp (nnn : BitVec 12)
  /-- `2nnn` CALL nnn, call subroutine (R112). -/
  | call (nnn : BitVec 12)
  /-- `3xnn` SE Vx, nn, skip if equal to immediate (R113). -/
  | seImm (x : Reg) (nn : Byte)
  /-- `4xnn` SNE Vx, nn, skip if not equal to immediate (R114). -/
  | sneImm (x : Reg) (nn : Byte)
  /-- `5xy0` SE Vx, Vy, skip if registers equal (R115). -/
  | seReg (x y : Reg)
  /-- `6xnn` LD Vx, nn, load immediate (R125). -/
  | ldImm (x : Reg) (nn : Byte)
  /-- `7xnn` ADD Vx, nn, add immediate (R126). -/
  | addImm (x : Reg) (nn : Byte)
  /-- `8xy0` LD Vx, Vy, copy register (R127). -/
  | ldReg (x y : Reg)
  /-- `8xy1` OR Vx, Vy (R128). -/
  | orReg (x y : Reg)
  /-- `8xy2` AND Vx, Vy (R129). -/
  | andReg (x y : Reg)
  /-- `8xy3` XOR Vx, Vy (R130). -/
  | xorReg (x y : Reg)
  /-- `8xy4` ADD Vx, Vy, add with carry out (R131). -/
  | addReg (x y : Reg)
  /-- `8xy5` SUB Vx, Vy, subtract (R132). -/
  | subReg (x y : Reg)
  /-- `8xy6` SHR Vx, shift right by one; y is decoded and ignored (R133). -/
  | shr (x y : Reg)
  /-- `8xy7` SUBN Vx, Vy, reverse subtract (R134). -/
  | subn (x y : Reg)
  /-- `8xyE` SHL Vx, shift left by one; y is decoded and ignored (R135). -/
  | shl (x y : Reg)
  /-- `9xy0` SNE Vx, Vy, skip if registers differ (R116). -/
  | sneReg (x y : Reg)
  /-- `Annn` LD I, nnn, load index register (R145). -/
  | ldI (nnn : BitVec 12)
  /-- `Bnnn` JP V0, nnn, jump with offset (R118). -/
  | jpV0 (nnn : BitVec 12)
  /-- `Cxnn` RND Vx, nn, random byte under mask (R182). -/
  | rnd (x : Reg) (nn : Byte)
  /-- `Dxyn` DRW Vx, Vy, n, draw sprite (R161). -/
  | drw (x y : Reg) (n : BitVec 4)
  /-- `Ex9E` SKP Vx, skip if key down (R176). -/
  | skp (x : Reg)
  /-- `ExA1` SKNP Vx, skip if key not down (R177). -/
  | sknp (x : Reg)
  /-- `Fx07` LD Vx, DT, read the delay timer (R178). -/
  | ldVxDt (x : Reg)
  /-- `Fx0A` LD Vx, K, wait for a key (R183). -/
  | ldVxK (x : Reg)
  /-- `Fx15` LD DT, Vx, set the delay timer (R179). -/
  | ldDtVx (x : Reg)
  /-- `Fx18` LD ST, Vx, set the sound timer (R180). -/
  | ldStVx (x : Reg)
  /-- `Fx1E` ADD I, Vx, add register to index (R146). -/
  | addI (x : Reg)
  /-- `Fx29` LD F, Vx, point I at a font glyph (R147). -/
  | ldF (x : Reg)
  /-- `Fx33` LD B, Vx, store binary-coded decimal (R148). -/
  | ldB (x : Reg)
  /-- `Fx55` LD [I], Vx, store registers V0 to Vx (R149). -/
  | stRegs (x : Reg)
  /-- `Fx65` LD Vx, [I], load registers V0 to Vx (R150). -/
  | ldRegs (x : Reg)
  deriving DecidableEq, Repr

end Sys2Proof
end

