-- ==== Sys2Proof/WellFormed.lean ====
section
/-! DEFINITION. Which instructions are well formed. Every operand of `Instr` has exactly the width of its field, and the
spec makes every value of every field legal: "every value of the field names a register and no register number is
illegal" (spec/10_state.md R22), "any nnn is accepted" (R111, R112, R145), n is a row count 0 to 15 (R83). So there is
nothing left to check, and no ill-formed term can be written (log entry 5). -/

namespace Sys2Proof

/-- An instruction is well formed: always, since the operand types admit exactly the legal operand values (R22, R83).
Matched constructor by constructor, so that a new instruction with a real condition cannot slip past. -/
def Instr.wellFormed (i : Instr) : Bool :=
  match i with
  | .cls | .ret => true
  | .jp _ | .call _ | .ldI _ | .jpV0 _ => true
  | .seImm _ _ | .sneImm _ _ | .ldImm _ _ | .addImm _ _ | .rnd _ _ => true
  | .seReg _ _ | .ldReg _ _ | .orReg _ _ | .andReg _ _ | .xorReg _ _ | .addReg _ _ | .subReg _ _ | .shr _ _
  | .subn _ _ | .shl _ _ | .sneReg _ _ => true
  | .drw _ _ _ => true
  | .skp _ | .sknp _ | .ldVxDt _ | .ldVxK _ | .ldDtVx _ | .ldStVx _ | .addI _ | .ldF _ | .ldB _ | .stRegs _
  | .ldRegs _ => true

end Sys2Proof
end

