-- ==== Sys2Proof/Decode.lean ====
section
/-! DEFINITION. Decoding (spec/30_encoding.md): the six fields of a word (R81), the dispatcher (R84, R103), decoding of
any list of bytes with a rejection by name, and after it the encoder and the mask-and-match rows of R85. -/

namespace Sys2Proof

/-! ## The fields of a word (R81) -/

/-- `op = w[15:12]`, the major opcode. -/
def opField (w : Word) : BitVec 4 := w.extractLsb' 12 4

/-- `x = w[11:8]`, the first register number. -/
def xField (w : Word) : Reg := w.extractLsb' 8 4

/-- `y = w[7:4]`, the second register number. -/
def yField (w : Word) : Reg := w.extractLsb' 4 4

/-- `n = w[3:0]`, 4-bit immediate or sub-opcode. -/
def nField (w : Word) : BitVec 4 := w.extractLsb' 0 4

/-- `nn = w[7:0]`, 8-bit immediate or sub-opcode. -/
def nnField (w : Word) : Byte := w.extractLsb' 0 8

/-- `nnn = w[11:0]`, 12-bit address. -/
def nnnField (w : Word) : BitVec 12 := w.extractLsb' 0 12

/-! ## The dispatcher (R84, R85, R103) -/

/-- Major 0 is selected by the whole word: only 0x00E0 and 0x00EE are instructions (R84). -/
def decodeMajor0 (w : Word) : Option Instr :=
  if w = 0x00E0#16 then some .cls else if w = 0x00EE#16 then some .ret else none

/-- Major 8 is selected by n; 8, 9, A, B, C, D and F are illegal (R85, R87). -/
def decodeMajor8 (x y : Reg) (n : BitVec 4) : Option Instr :=
  match n with
  | 0x0#4 => some (.ldReg x y)
  | 0x1#4 => some (.orReg x y)
  | 0x2#4 => some (.andReg x y)
  | 0x3#4 => some (.xorReg x y)
  | 0x4#4 => some (.addReg x y)
  | 0x5#4 => some (.subReg x y)
  | 0x6#4 => some (.shr x y)
  | 0x7#4 => some (.subn x y)
  | 0xE#4 => some (.shl x y)
  | _ => none

/-- Major E is selected by nn (R85, R87). -/
def decodeMajorE (x : Reg) (nn : Byte) : Option Instr :=
  match nn with
  | 0x9E#8 => some (.skp x)
  | 0xA1#8 => some (.sknp x)
  | _ => none

/-- Major F is selected by nn (R85, R87). -/
def decodeMajorF (x : Reg) (nn : Byte) : Option Instr :=
  match nn with
  | 0x07#8 => some (.ldVxDt x)
  | 0x0A#8 => some (.ldVxK x)
  | 0x15#8 => some (.ldDtVx x)
  | 0x18#8 => some (.ldStVx x)
  | 0x1E#8 => some (.addI x)
  | 0x29#8 => some (.ldF x)
  | 0x33#8 => some (.ldB x)
  | 0x55#8 => some (.stRegs x)
  | 0x65#8 => some (.ldRegs x)
  | _ => none

/-- The instruction a word is, or none where no row of R85 matches it (R87). Decode reads nothing but the word (R103).
The last arm is major F, the only value of `op` left. -/
def decodeWord (w : Word) : Option Instr :=
  match opField w with
  | 0x0#4 => decodeMajor0 w
  | 0x1#4 => some (.jp (nnnField w))
  | 0x2#4 => some (.call (nnnField w))
  | 0x3#4 => some (.seImm (xField w) (nnField w))
  | 0x4#4 => some (.sneImm (xField w) (nnField w))
  | 0x5#4 => if nField w = 0x0#4 then some (.seReg (xField w) (yField w)) else none
  | 0x6#4 => some (.ldImm (xField w) (nnField w))
  | 0x7#4 => some (.addImm (xField w) (nnField w))
  | 0x8#4 => decodeMajor8 (xField w) (yField w) (nField w)
  | 0x9#4 => if nField w = 0x0#4 then some (.sneReg (xField w) (yField w)) else none
  | 0xA#4 => some (.ldI (nnnField w))
  | 0xB#4 => some (.jpV0 (nnnField w))
  | 0xC#4 => some (.rnd (xField w) (nnField w))
  | 0xD#4 => some (.drw (xField w) (yField w) (nField w))
  | 0xE#4 => decodeMajorE (xField w) (nnField w)
  | _ => decodeMajorF (xField w) (nnField w)

/-- Byte 0, at the lower address, is the more significant half (R55). -/
def wordOfBytes (b0 b1 : Byte) : Word := b0 ++ b1

/-- Byte 0 of a word, `w[15:8]` (R6). -/
def byte0 (w : Word) : Byte := w.extractLsb' 8 8

/-- Byte 1 of a word, `w[7:0]` (R6). -/
def byte1 (w : Word) : Byte := w.extractLsb' 0 8

/-- Why bytes are no instruction. -/
inductive DecodeRefusal where
  /-- The word matches no row of R85: the spec's `DecodeError`, carrying the word (R87, R201). -/
  | illegalWord (w : Word)
  /-- Fewer than the two bytes that every instruction has (R80). -/
  | truncated
  deriving DecidableEq, Repr

/-- Decode the first instruction of any list of bytes, and give back the bytes after it. Every instruction is two bytes
(R80). -/
def decodeBytes (bs : List Byte) : Except DecodeRefusal (Instr × List Byte) :=
  match bs with
  | b0 :: b1 :: rest =>
    match decodeWord (wordOfBytes b0 b1) with
    | some i => .ok (i, rest)
    | none => .error (.illegalWord (wordOfBytes b0 b1))
  | _ => .error .truncated

/-- The 16-bit word whose low `nbits` bits are those of `w` and whose other bits are zero. -/
def tableWord (nbits w : Nat) : Word := BitVec.ofNat 16 (w % 2 ^ nbits)

/-- The instruction the decoder reads from an instruction whose bits are `w` as spec/opcode_table.json numbers them: the
word laid out big-endian as two bytes and decoded. No instruction is longer than 16 bits (R80). -/
def decodeTableWord (nbits w : Nat) : Option Instr :=
  if nbits ≤ 16 then
    match decodeBytes [byte0 (tableWord nbits w), byte1 (tableWord nbits w)] with
    | .ok (i, _) => some i
    | .error _ => none
  else none

/-! ## The encoder -/

/-- The word of an instruction, nibble by nibble from R82 and R85. -/
def encode (i : Instr) : Word :=
  match i with
  | .cls => 0x00E0#16
  | .ret => 0x00EE#16
  | .jp nnn => 0x1#4 ++ nnn
  | .call nnn => 0x2#4 ++ nnn
  | .seImm x nn => 0x3#4 ++ x ++ nn
  | .sneImm x nn => 0x4#4 ++ x ++ nn
  | .seReg x y => 0x5#4 ++ x ++ y ++ 0x0#4
  | .ldImm x nn => 0x6#4 ++ x ++ nn
  | .addImm x nn => 0x7#4 ++ x ++ nn
  | .ldReg x y => 0x8#4 ++ x ++ y ++ 0x0#4
  | .orReg x y => 0x8#4 ++ x ++ y ++ 0x1#4
  | .andReg x y => 0x8#4 ++ x ++ y ++ 0x2#4
  | .xorReg x y => 0x8#4 ++ x ++ y ++ 0x3#4
  | .addReg x y => 0x8#4 ++ x ++ y ++ 0x4#4
  | .subReg x y => 0x8#4 ++ x ++ y ++ 0x5#4
  | .shr x y => 0x8#4 ++ x ++ y ++ 0x6#4
  | .subn x y => 0x8#4 ++ x ++ y ++ 0x7#4
  | .shl x y => 0x8#4 ++ x ++ y ++ 0xE#4
  | .sneReg x y => 0x9#4 ++ x ++ y ++ 0x0#4
  | .ldI nnn => 0xA#4 ++ nnn
  | .jpV0 nnn => 0xB#4 ++ nnn
  | .rnd x nn => 0xC#4 ++ x ++ nn
  | .drw x y n => 0xD#4 ++ x ++ y ++ n
  | .skp x => 0xE#4 ++ x ++ 0x9E#8
  | .sknp x => 0xE#4 ++ x ++ 0xA1#8
  | .ldVxDt x => 0xF#4 ++ x ++ 0x07#8
  | .ldVxK x => 0xF#4 ++ x ++ 0x0A#8
  | .ldDtVx x => 0xF#4 ++ x ++ 0x15#8
  | .ldStVx x => 0xF#4 ++ x ++ 0x18#8
  | .addI x => 0xF#4 ++ x ++ 0x1E#8
  | .ldF x => 0xF#4 ++ x ++ 0x29#8
  | .ldB x => 0xF#4 ++ x ++ 0x33#8
  | .stRegs x => 0xF#4 ++ x ++ 0x55#8
  | .ldRegs x => 0xF#4 ++ x ++ 0x65#8

/-! ## The opcode map as masks and patterns (R85) -/

/-- One row of R85: a word `w` is the instruction when `w & mask = pattern`. -/
structure OpcodeRow where
  mask : Word
  pattern : Word
  deriving DecidableEq, Repr

/-- The row of R85 an instruction belongs to. -/
def Instr.row (i : Instr) : OpcodeRow :=
  match i with
  | .cls => ⟨0xFFFF, 0x00E0⟩
  | .ret => ⟨0xFFFF, 0x00EE⟩
  | .jp _ => ⟨0xF000, 0x1000⟩
  | .call _ => ⟨0xF000, 0x2000⟩
  | .seImm _ _ => ⟨0xF000, 0x3000⟩
  | .sneImm _ _ => ⟨0xF000, 0x4000⟩
  | .seReg _ _ => ⟨0xF00F, 0x5000⟩
  | .ldImm _ _ => ⟨0xF000, 0x6000⟩
  | .addImm _ _ => ⟨0xF000, 0x7000⟩
  | .ldReg _ _ => ⟨0xF00F, 0x8000⟩
  | .orReg _ _ => ⟨0xF00F, 0x8001⟩
  | .andReg _ _ => ⟨0xF00F, 0x8002⟩
  | .xorReg _ _ => ⟨0xF00F, 0x8003⟩
  | .addReg _ _ => ⟨0xF00F, 0x8004⟩
  | .subReg _ _ => ⟨0xF00F, 0x8005⟩
  | .shr _ _ => ⟨0xF00F, 0x8006⟩
  | .subn _ _ => ⟨0xF00F, 0x8007⟩
  | .shl _ _ => ⟨0xF00F, 0x800E⟩
  | .sneReg _ _ => ⟨0xF00F, 0x9000⟩
  | .ldI _ => ⟨0xF000, 0xA000⟩
  | .jpV0 _ => ⟨0xF000, 0xB000⟩
  | .rnd _ _ => ⟨0xF000, 0xC000⟩
  | .drw _ _ _ => ⟨0xF000, 0xD000⟩
  | .skp _ => ⟨0xF0FF, 0xE09E⟩
  | .sknp _ => ⟨0xF0FF, 0xE0A1⟩
  | .ldVxDt _ => ⟨0xF0FF, 0xF007⟩
  | .ldVxK _ => ⟨0xF0FF, 0xF00A⟩
  | .ldDtVx _ => ⟨0xF0FF, 0xF015⟩
  | .ldStVx _ => ⟨0xF0FF, 0xF018⟩
  | .addI _ => ⟨0xF0FF, 0xF01E⟩
  | .ldF _ => ⟨0xF0FF, 0xF029⟩
  | .ldB _ => ⟨0xF0FF, 0xF033⟩
  | .stRegs _ => ⟨0xF0FF, 0xF055⟩
  | .ldRegs _ => ⟨0xF0FF, 0xF065⟩

/-- One instruction of each row of R85, in the table's order. -/
def rowRepresentatives : List Instr :=
  [.cls, .ret, .jp 0, .call 0, .seImm 0 0, .sneImm 0 0, .seReg 0 0, .ldImm 0 0, .addImm 0 0, .ldReg 0 0, .orReg 0 0,
    .andReg 0 0, .xorReg 0 0, .addReg 0 0, .subReg 0 0, .shr 0 0, .subn 0 0, .shl 0 0] ++
  [.sneReg 0 0, .ldI 0, .jpV0 0, .rnd 0 0, .drw 0 0 0, .skp 0, .sknp 0, .ldVxDt 0, .ldVxK 0, .ldDtVx 0, .ldStVx 0,
    .addI 0, .ldF 0, .ldB 0, .stRegs 0, .ldRegs 0]

/-- The 34 rows of R85. -/
def opcodeRows : List OpcodeRow := rowRepresentatives.map Instr.row

/-- A word is in a row of R85. -/
def OpcodeRow.accepts (r : OpcodeRow) (w : Word) : Bool := w &&& r.mask == r.pattern

end Sys2Proof
end

