-- ==== Sys2Proof/Machine/Events.lean ====
section
/-! DEFINITION. The events of spec/00_scope.md R10: the host's and the clock's own (Tick, Stop, Load, Reset), which event
comes next, and the part of a Step before the execute phase: sample, fetch, advance, decode (spec/40_step_cycle.md R100
to R103). -/

namespace Sys2Proof.Machine

/-! ## The events that are no Step -/

/-- One timer goes down by one and stays at 0 (R214). -/
def tickTimer (t : Byte) : Byte := if t = 0 then 0 else t - 1

/-- `Tick` (R214): both timers see it, in either FSM state. -/
def State.tick (s : State) : State := { s with dt := tickTimer s.dt, st := tickTimer s.st }

/-- `Stop` (R211): halts with the recorded error as it is, None where the machine was running. -/
def State.stop (s : State) : State := { s with halted := true }

/-- `Load(bytes, at)` (R63, R205): all the bytes, or a `LoadError` to the host and no change of state. -/
def State.load (s : State) (bytes : List Byte) (start : Nat) : State :=
  if start + bytes.length ≤ Config.memSize then { s with mem := s.mem.writeBytes start bytes }
  else { s with report := some (.loadError start bytes.length) }

/-- `Reset` (R240): every piece of state as R36 says. The host's own schedule goes on (log entry 7). -/
def State.hostReset (s : State) : State :=
  { State.reset with pending := s.pending, onward := s.onward, draws := s.draws }

/-! ## Which event comes next (R9) -/

/-- A Step whose inputs are the next free values (R175, R181; log entry 2). -/
def State.freeStep (s : State) : Event := .step (Config.freeKeys s.draws) (Config.freeRnd s.draws)

/-- The event that comes where the schedule gives none: a Step with free inputs, or any event at all (log entry 1). -/
def State.freeEvent (s : State) : Event :=
  match s.onward with
  | .steps => s.freeStep
  | .anything => Config.freeEvent s.draws

/-- The next event, and the state it acts on: the head of the schedule, or the next free event where it is empty. The
report of the event before is over (R207: reported once). -/
def State.takeEvent (s : State) : Event × State :=
  match s.pending with
  | e :: rest => (e, { s with pending := rest, report := none })
  | [] => (s.freeEvent, { s with draws := s.draws + 1, report := none })

/-! ## A Step before its execute phase -/

/-- The inputs a Step samples (R34, R175, R181). -/
def State.sample (s : State) (keys : BitVec 16) (rnd : Byte) : State := { s with keys := keys, rnd := rnd }

/-- Fetch the word at pc, big-endian, or raise `OutOfBoundsAccess` (R101, R55). -/
def State.fetch (s : State) : Except Report Word :=
  match firstOffending s.pc.toNat 2 with
  | some a => .error (.outOfBoundsAccess a)
  | none => .ok (wordOfBytes (s.mem.readByte s.pc.toNat) (s.mem.readByte (s.pc.toNat + 1)))

/-- What is left to do of an event: nothing, it has ended in a state; or the execute phase of an instruction. -/
inductive Phase where
  | done (s : State)
  | execute (i : Instr) (s : State)
  deriving DecidableEq, Repr

/-- Fetch, advance and decode of a Step (R100 to R103, R105): nothing on a halted core; a fetch error leaves pc at pc0;
an illegal word is a `DecodeError` with pc at pc0 + 2. -/
def State.fetchDecode (s : State) : Phase :=
  if s.halted then .done s
  else
    match s.fetch with
    | .error e => .done (s.raise e)
    | .ok w =>
      match decodeWord w with
      | none => .done (s.advance.raise (.decodeError w))
      | some i => .execute i s.advance

/-- An event up to the execute phase of its instruction, if it has one. -/
def State.begin (s : State) (e : Event) : Phase :=
  match e with
  | .step keys rnd => (s.sample keys rnd).fetchDecode
  | .tick => .done s.tick
  | .stop => .done s.stop
  | .load bytes start => .done (s.load bytes start)
  | .reset => .done s.hostReset

/-! ## Placing an instruction for the next step -/

/-- The next event is a Step: where it is not known to be one, a Step with free inputs comes before it. -/
def State.nextIsStep (s : State) : State :=
  match s.pending, s.onward with
  | .step _ _ :: _, _ => s
  | [], .steps => s
  | _, _ => { s with pending := s.freeStep :: s.pending, draws := s.draws + 1 }

/-- A pc that can be fetched at: the state's own where it is, else the program start. -/
def State.fetchablePc (s : State) : Word :=
  if s.pc.toNat + 2 ≤ Config.memSize then s.pc else Config.programStart

/-- The state with a word stored where the next Step fetches, ready to fetch it. -/
def State.placeWord (s : State) (w : Word) : State :=
  let t := s.nextIsStep
  { t with
    pc := s.fetchablePc
    halted := false
    err := if s.halted then .none else s.err
    mem := s.mem.writeBytes s.fetchablePc.toNat [byte0 w, byte1 w] }

end Sys2Proof.Machine
end

