-- ==== Sys2Proof/Machine/Step.lean ====
section
/-! DEFINITION. One step of the machine: the next event, to its end (spec/00_scope.md R9, spec/40_step_cycle.md R100).
What an event does before its execute phase stands in Machine/Events.lean. -/

namespace Sys2Proof.Machine

/-- One event: what comes before the execute phase, and then the execute phase if there is one. -/
def step (s : State) : Host.Outcome State Fault Refusal :=
  match s.takeEvent.2.begin s.takeEvent.1 with
  | .done t => .next t
  | .execute i t => exec i t

/-- The state with an instruction stored where `step` fetches its next one, so that the very next step runs it. It
stands for the host's Load of R63; on a state that is halted, whose pc cannot be fetched at, or whose next event is no
Step, it sets that right too (log entry 6). -/
def State.withFetchWord (s : State) (nbits w : Nat) : State := s.placeWord (tableWord nbits w)

end Sys2Proof.Machine
end

