-- ==== Sys2Proof/Machine/Observe.lean ====
section
/-! DEFINITION. What the host can observe between events (spec/10_state.md R31, R32, R34; spec/44_display.md R165):
functions of the state that change nothing. -/

namespace Sys2Proof.Machine

/-- The output `tone`: the sound timer is above 0 (R31). -/
def State.tone (s : State) : Bool := 0 < s.st.toNat

/-- `STATUS[3:0] = halted ++ err`, bit 3 the halted bit (R32). -/
def State.status (s : State) : BitVec 4 := BitVec.ofBool s.halted ++ s.err.bits

/-- The rows of a framebuffer as one number, row 0 lowest. -/
def packRows (rows : List (BitVec 64)) : Nat :=
  match rows with
  | [] => 0
  | row :: rows' => row.toNat + 2 ^ 64 * packRows rows'

/-- The snapshot port: `FB[64 * y + x] = fb[y][x]` (R165). -/
def State.snapshot (s : State) : BitVec 2048 := BitVec.ofNat 2048 (packRows s.fb.toList)

end Sys2Proof.Machine
end

