-- ==== Sys2Proof/Safety.lean ====
section
/-! DEFINITION. The terms in which claims about the machine are stated: what an instruction changes and leaves alone, what
an error does, the invariant of the reachable states, when a run has failed or come to its end. -/

/-! ## Classes of instructions -/

namespace Sys2Proof

/-- The instructions that may set pc beyond the advance: jumps, call, return, skips, and `Fx0A` (R27). -/
def Instr.setsPc (i : Instr) : Bool :=
  match i with
  | .ret | .jp _ | .call _ | .jpV0 _ | .seImm _ _ | .sneImm _ _ | .seReg _ _ | .sneReg _ _ | .skp _ | .sknp _
  | .ldVxK _ => true
  | _ => false

/-- The instructions that read an input of the Step (R104, R175, R181). -/
def Instr.readsInput (i : Instr) : Bool :=
  match i with
  | .skp _ | .sknp _ | .ldVxK _ | .rnd _ _ => true
  | _ => false

/-- The instructions that write memory (R54). -/
def Instr.storesToMemory (i : Instr) : Bool :=
  match i with
  | .ldB _ | .stRegs _ => true
  | _ => false

end Sys2Proof

namespace Sys2Proof.Machine

/-! ## Frames -/

/-- The pieces of `State`, the model's own fields included. -/
inductive Part where
  | mem | v | i | pc | stack | sp | dt | st | halted | err | fb | keys | rnd | report | pending | onward | draws
  deriving DecidableEq, Repr

/-- One piece is the same in two states: memory by its reads of one byte, the registers by their reads, the display by
its pixels. -/
def Keeps (p : Part) (s t : State) : Prop :=
  match p with
  | .mem => ∀ a, t.mem.readByte a = s.mem.readByte a
  | .v => ∀ r, t.getV r = s.getV r
  | .i => t.i = s.i
  | .pc => t.pc = s.pc
  | .stack => t.stack = s.stack
  | .sp => t.sp = s.sp
  | .dt => t.dt = s.dt
  | .st => t.st = s.st
  | .halted => t.halted = s.halted
  | .err => t.err = s.err
  | .fb => ∀ x y, t.fb.pixel x y = s.fb.pixel x y
  | .keys => t.keys = s.keys
  | .rnd => t.rnd = s.rnd
  | .report => t.report = s.report
  | .pending => t.pending = s.pending
  | .onward => t.onward = s.onward
  | .draws => t.draws = s.draws

/-- Every piece of state but the named ones is the same in both states. -/
def OnlyChanges (parts : List Part) (s t : State) : Prop := ∀ p, p ∉ parts → Keeps p s t

/-- Every general register but the named ones is the same in both states. -/
def OnlyWrites (regs : List Reg) (s t : State) : Prop := ∀ r, r ∉ regs → t.getV r = s.getV r

/-- What an error does to the state it is raised in: halt, code, report, and nothing else (R207, R208). -/
def HaltsWith (e : Report) (s t : State) : Prop :=
  t.halted = true ∧ t.err = e.code ∧ t.report = some e ∧ OnlyChanges [.halted, .err, .report] s t

/-! ## Steps -/

/-- The next event of `s` is `e`, and `t` is `s` with the event taken off the schedule and the report of the event before
cleared. The event is the head of `pending`, and the rest stays pending; or `pending` is empty and it is a free event: a
Step with free inputs, or any event where the schedule says so (R9; log entries 1 and 2). -/
def Takes (e : Event) (s t : State) : Prop :=
  (∃ rest, s.pending = e :: rest ∧ t = { s with pending := rest, report := none }) ∨
  (s.pending = [] ∧ t = { s with draws := s.draws + 1, report := none } ∧
    (s.onward = .steps ∧ e = .step (Config.freeKeys s.draws) (Config.freeRnd s.draws) ∨
      s.onward = .anything ∧ e = Config.freeEvent s.draws))

/-- The next event of `s` is a Step, and `t` is `s` with the event taken off the schedule and that Step's inputs sampled
(R34). -/
def AboutToStep (s t : State) : Prop :=
  ∃ k r u, Takes (.step k r) s u ∧ t = { u with keys := k, rnd := r }

/-- The values R36 gives after Reset. -/
structure AtReset (s : State) : Prop where
  mem : ∀ a, s.mem.readByte a = 0
  v : ∀ r, s.getV r = 0
  i : s.i = 0
  pc : s.pc = 0x0200
  sp : s.sp = 0
  stack : ∀ k (h : k < 16), s.stack[k]'h = 0
  fb : ∀ x y, s.fb.pixel x y = false
  dt : s.dt = 0
  st : s.st = 0
  halted : s.halted = false
  err : s.err = .none

/-! ## Words the rules use -/

/-- The word at an address, big-endian (R55). -/
def wordAt (m : Memory) (a : Nat) : Word := wordOfBytes (m.readByte a) (m.readByte (a + 1))

/-- The sprite `Dxyn` draws has a 1 for the pixel at column px, row py: some row r and bit b of it fall on that pixel
and are 1 (R162, R164). -/
def SpriteCovers (s : State) (x y : Reg) (n : BitVec 4) (px : BitVec 6) (py : BitVec 5) : Prop :=
  ∃ r b, r < n.toNat ∧ b < 8 ∧ px.toNat = ((s.getV x).toNat + b) % 64 ∧ py.toNat = ((s.getV y).toNat + r) % 32 ∧
    (s.mem.readByte (s.i.toNat + r)).getLsbD (7 - b) = true

/-- The condition of a skip instruction, in the state after the advance; none for an instruction that is no skip
(R113 to R117, R176, R177). -/
def skipCondition (i : Instr) (s : State) : Option Prop :=
  match i with
  | .seImm x nn => some (s.getV x = nn)
  | .sneImm x nn => some (s.getV x ≠ nn)
  | .seReg x y => some (s.getV x = s.getV y)
  | .sneReg x y => some (s.getV x ≠ s.getV y)
  | .skp x => some (s.keys.getLsbD ((s.getV x).toNat % 16) = true)
  | .sknp x => some (s.keys.getLsbD ((s.getV x).toNat % 16) = false)
  | _ => none

/-- The outcome with a function applied to its next state. -/
def mapNext (f : State → State) (r : Result) : Result :=
  match r with
  | .next t => .next (f t)
  | .fault e => .fault e
  | .refused e => .refused e

/-! ## Runs -/

/-- The invariant of every reachable state: canonical memory (the model's own), the bounds of pc and of the stack
entries (R28), and what `err` may hold (R32, R200). -/
structure State.Inv (s : State) : Prop where
  memWf : s.mem.wf
  pcBound : s.pc.toNat ≤ 0x10FE
  stackBound : ∀ k (h : k < 16), k < s.sp.val → (s.stack[k]'h).toNat ≤ 0x1000
  errNone : s.halted = false → s.err = .none
  errNotLoad : s.err ≠ .loadError

/-- `FatalExecutionError`, the umbrella: halted with an error. Never a state of a successful run (R200, R222). -/
def State.failed (s : State) : Bool := s.halted && s.err != .none

/-- The program has ended: running at a jump to its own address (R247 (c)). -/
def State.ended (s : State) : Prop :=
  s.halted = false ∧ s.pc.toNat ≤ 0xFFE ∧ (wordAt s.mem s.pc.toNat).toNat = 0x1000 + s.pc.toNat

/-- No piece of state that is the hardware's differs, whatever a Step does to the model's own fields. -/
def SameMachine (s t : State) : Prop := OnlyChanges [.keys, .rnd, .report, .pending, .draws] s t

end Sys2Proof.Machine
end

