-- ==== Sys2Proof/Certificates/Slice0/Obligations.lean ====
section
/-! DEFINITION. The statements for the provers, one for each rule or group of rules of spec/ that says what the machine
does. OBLIGATIONS.json gives each its title, its words and the rules it cites. An instruction rule is about the execute
phase, where pc is already pc0 + 2 (spec/40_step_cycle.md R104). -/

open Sys2Proof Sys2Proof.Machine

/-! ## Control transfer (spec/41_control_flow.md) -/

/-- `00EE`, R110 and R204: pops into pc, or `StackUnderflow`; in a state of the invariant the popped value is at most
0x1000. -/
def Obligations.ReturnPopsTheStackOrUnderflows : Prop :=
  ∀ s : State,
    (∀ k (h : k < 16), s.sp.val = k + 1 →
      ∃ t, exec .ret s = .next t ∧ t.pc = s.stack[k]'h ∧ t.sp.val = k ∧ OnlyChanges [.pc, .sp] s t ∧
        (s.Inv → t.pc.toNat ≤ 0x1000)) ∧
    (s.sp.val = 0 → ∃ t, exec .ret s = .next t ∧ HaltsWith .stackUnderflow s t)

/-- `1nnn`, R111: pc becomes nnn; of all targets only 0xFFF cannot be fetched at. -/
def Obligations.JumpGoesToNnn : Prop :=
  ∀ (nnn : BitVec 12) (s : State), ∃ t, exec (.jp nnn) s = .next t ∧ t.pc.toNat = nnn.toNat ∧
    OnlyChanges [.pc] s t ∧ ((∃ e, t.fetch = .error e) ↔ nnn = 0xFFF)

/-- `2nnn`, R112: pushes the advanced pc and jumps, and a return comes back to it; with 16 entries (the depth is the
spec's own decision D2) `StackOverflow`. -/
def Obligations.CallPushesTheReturnAddressOrOverflows : Prop :=
  ∀ (nnn : BitVec 12) (s : State),
    (∀ h : s.sp.val < 16,
      ∃ t, exec (.call nnn) s = .next t ∧ t.stack[s.sp.val]'h = s.pc ∧ t.sp.val = s.sp.val + 1 ∧
        t.pc.toNat = nnn.toNat ∧ (∀ k (hk : k < 16), k ≠ s.sp.val → t.stack[k]'hk = s.stack[k]'hk) ∧
        OnlyChanges [.pc, .sp, .stack] s t ∧
        ∃ u, exec .ret t = .next u ∧ u.pc = s.pc ∧ u.sp = s.sp) ∧
    (s.sp.val = 16 → ∃ t, exec (.call nnn) s = .next t ∧ HaltsWith .stackOverflow s t)

/-- `3xnn` and `4xnn`, R113 and R114. -/
def Obligations.SkipsComparingAnImmediate : Prop :=
  ∀ (x : Reg) (nn : Byte) (s : State),
    (∃ t, exec (.seImm x nn) s = .next t ∧ t.pc = (if s.getV x = nn then s.pc + 2 else s.pc) ∧
      OnlyChanges [.pc] s t) ∧
    (∃ t, exec (.sneImm x nn) s = .next t ∧ t.pc = (if s.getV x = nn then s.pc else s.pc + 2) ∧
      OnlyChanges [.pc] s t)

/-- `5xy0`, R115. -/
def Obligations.SkipsIfRegistersAreEqual : Prop :=
  ∀ (x y : Reg) (s : State), ∃ t, exec (.seReg x y) s = .next t ∧
    t.pc = (if s.getV x = s.getV y then s.pc + 2 else s.pc) ∧ OnlyChanges [.pc] s t

/-- `9xy0`; the spec supplies this instruction itself (decision D12, "the mirror of `5xy0` as `4xnn` mirrors `3xnn`").
-/
def Obligations.SkipsIfRegistersDiffer : Prop :=
  ∀ (x y : Reg) (s : State), ∃ t, exec (.sneReg x y) s = .next t ∧
    t.pc = (if s.getV x = s.getV y then s.pc else s.pc + 2) ∧ OnlyChanges [.pc] s t

/-- `Bnnn`; that the offset is V0 is the spec's own decision D16: nnn + V0 without reduction; a sum above 0xFFE cannot
be fetched at. -/
def Obligations.JumpWithOffsetAddsV0 : Prop :=
  ∀ (nnn : BitVec 12) (s : State), ∃ t, exec (.jpV0 nnn) s = .next t ∧
    t.pc.toNat = nnn.toNat + (s.getV 0).toNat ∧ OnlyChanges [.pc] s t ∧
    ((∃ e, t.fetch = .error e) ↔ 0xFFE < nnn.toNat + (s.getV 0).toNat)

/-! ## Register load and ALU (spec/42_load_alu.md) -/

/-- `6xnn`, R125. -/
def Obligations.LoadImmediateSetsVx : Prop :=
  ∀ (x : Reg) (nn : Byte) (s : State), ∃ t, exec (.ldImm x nn) s = .next t ∧ t.getV x = nn ∧ OnlyWrites [x] s t ∧
    OnlyChanges [.v] s t

/-- `7xnn`, R126: modulo 256, and no flag, since no register but V[x] changes. -/
def Obligations.AddImmediateWrapsWithoutFlag : Prop :=
  ∀ (x : Reg) (nn : Byte) (s : State), ∃ t, exec (.addImm x nn) s = .next t ∧
    (t.getV x).toNat = ((s.getV x).toNat + nn.toNat) % 256 ∧ OnlyWrites [x] s t ∧ OnlyChanges [.v] s t

/-- `8xy0`, R127. -/
def Obligations.CopyRegisterSetsVxToVy : Prop :=
  ∀ (x y : Reg) (s : State), ∃ t, exec (.ldReg x y) s = .next t ∧ t.getV x = s.getV y ∧ t.getV y = s.getV y ∧
    OnlyWrites [x] s t ∧ OnlyChanges [.v] s t

/-- `8xy1`, `8xy2`, `8xy3`, R128 to R130: bit by bit, and no flag. -/
def Obligations.LogicOperationsActBitByBit : Prop :=
  ∀ (x y : Reg) (s : State),
    (∃ t, exec (.orReg x y) s = .next t ∧
      (∀ k, (t.getV x).getLsbD k = ((s.getV x).getLsbD k || (s.getV y).getLsbD k)) ∧ OnlyWrites [x] s t ∧
      OnlyChanges [.v] s t) ∧
    (∃ t, exec (.andReg x y) s = .next t ∧
      (∀ k, (t.getV x).getLsbD k = ((s.getV x).getLsbD k && (s.getV y).getLsbD k)) ∧ OnlyWrites [x] s t ∧
      OnlyChanges [.v] s t) ∧
    (∃ t, exec (.xorReg x y) s = .next t ∧
      (∀ k, (t.getV x).getLsbD k = ((s.getV x).getLsbD k ^^ (s.getV y).getLsbD k)) ∧ OnlyWrites [x] s t ∧
      OnlyChanges [.v] s t)

/-- `8xy4`, R131: with x = 15 the sum is lost and VF is the carry. -/
def Obligations.AddSetsCarry : Prop :=
  ∀ (x y : Reg) (s : State), ∃ t, exec (.addReg x y) s = .next t ∧
    (x ≠ vf → (t.getV x).toNat = ((s.getV x).toNat + (s.getV y).toNat) % 256) ∧
    t.getV vf = (if 255 < (s.getV x).toNat + (s.getV y).toNat then 1 else 0) ∧
    OnlyWrites [x, vf] s t ∧ OnlyChanges [.v] s t

/-- `8xy5`; that VF = 1 means no borrow is the spec's own decision D13: the difference modulo 256, VF is 1 where there
is no borrow. -/
def Obligations.SubtractSetsNoBorrow : Prop :=
  ∀ (x y : Reg) (s : State), ∃ t, exec (.subReg x y) s = .next t ∧
    (x ≠ vf → (t.getV x).toNat = ((s.getV x).toNat + 256 - (s.getV y).toNat) % 256) ∧
    t.getV vf = (if (s.getV y).toNat ≤ (s.getV x).toNat then 1 else 0) ∧
    OnlyWrites [x, vf] s t ∧ OnlyChanges [.v] s t

/-- `8xy6`; that V[x] is shifted in place is the spec's own decision D14: V[x] in place, whatever y is. -/
def Obligations.ShiftRightPutsBitZeroInVF : Prop :=
  ∀ (x y : Reg) (s : State), ∃ t, exec (.shr x y) s = .next t ∧
    (x ≠ vf → (t.getV x).toNat = (s.getV x).toNat / 2) ∧
    (t.getV vf).toNat = (s.getV x).toNat % 2 ∧
    OnlyWrites [x, vf] s t ∧ OnlyChanges [.v] s t

/-- `8xy7`; that VF = 1 means no borrow is the spec's own decision D13: the operands exchanged. -/
def Obligations.ReverseSubtractSetsNoBorrow : Prop :=
  ∀ (x y : Reg) (s : State), ∃ t, exec (.subn x y) s = .next t ∧
    (x ≠ vf → (t.getV x).toNat = ((s.getV y).toNat + 256 - (s.getV x).toNat) % 256) ∧
    t.getV vf = (if (s.getV x).toNat ≤ (s.getV y).toNat then 1 else 0) ∧
    OnlyWrites [x, vf] s t ∧ OnlyChanges [.v] s t

/-- `8xyE`; that V[x] is shifted in place is the spec's own decision D14: V[x] in place, whatever y is. -/
def Obligations.ShiftLeftPutsBitSevenInVF : Prop :=
  ∀ (x y : Reg) (s : State), ∃ t, exec (.shl x y) s = .next t ∧
    (x ≠ vf → (t.getV x).toNat = 2 * (s.getV x).toNat % 256) ∧
    (t.getV vf).toNat = (s.getV x).toNat / 128 ∧
    OnlyWrites [x, vf] s t ∧ OnlyChanges [.v] s t

/-- A consequence the spec itself derives (section 4 of 42_load_alu.md; for `8xy5` to `8xyE` from its decisions D13
and D14): the forms with x = y, and the shifts, which ignore y. -/
def Obligations.SameSourceAndDestination : Prop :=
  ∀ (x : Reg) (s : State),
    (∃ t, exec (.ldReg x x) s = .next t ∧ OnlyChanges [] s t) ∧
    (∃ t, exec (.orReg x x) s = .next t ∧ OnlyChanges [] s t) ∧
    (∃ t, exec (.andReg x x) s = .next t ∧ OnlyChanges [] s t) ∧
    (∃ t, exec (.xorReg x x) s = .next t ∧ t.getV x = 0) ∧
    (∃ t, exec (.addReg x x) s = .next t ∧ (x ≠ vf → (t.getV x).toNat = 2 * (s.getV x).toNat % 256) ∧
      (t.getV vf).toNat = (s.getV x).toNat / 128) ∧
    (∃ t, exec (.subReg x x) s = .next t ∧ (x ≠ vf → t.getV x = 0) ∧ t.getV vf = 1) ∧
    (∃ t, exec (.subn x x) s = .next t ∧ (x ≠ vf → t.getV x = 0) ∧ t.getV vf = 1) ∧
    (∀ y, exec (.shr x y) s = exec (.shr x x) s ∧ exec (.shl x y) s = exec (.shl x x) s)

/-! ## Index register and memory (spec/43_index_memory.md) -/

/-- `Annn`, R145. -/
def Obligations.LoadIndexSetsI : Prop :=
  ∀ (nnn : BitVec 12) (s : State), ∃ t, exec (.ldI nnn) s = .next t ∧ t.i.toNat = nnn.toNat ∧ OnlyChanges [.i] s t

/-- `Fx1E`; the width of the sum and that VF is left alone are the spec's own decision D20: 16 bits wide, no flag. -/
def Obligations.AddToIndexWrapsAtSixteenBits : Prop :=
  ∀ (x : Reg) (s : State), ∃ t, exec (.addI x) s = .next t ∧
    t.i.toNat = (s.i.toNat + (s.getV x).toNat) % 65536 ∧ OnlyChanges [.i] s t

/-- `Fx29`; the low nibble and FONT_BASE = 0 are the spec's own decisions D18 and D21: five times the low nibble. -/
def Obligations.GlyphAddressIsFiveTimesTheDigit : Prop :=
  ∀ (x : Reg) (s : State), ∃ t, exec (.ldF x) s = .next t ∧ t.i.toNat = 5 * ((s.getV x).toNat % 16) ∧
    OnlyChanges [.i] s t

/-- `Fx33`, on a canonical memory (the instruction is supplied by the spec, decision D12; all-or-nothing is its
decision D10): three digits at I, I + 1, I + 2 and no other byte; or `OutOfBoundsAccess` with nothing written. -/
def Obligations.DecimalDigitsAreStoredAtI : Prop :=
  ∀ (x : Reg) (s : State), s.mem.wf →
    (s.i.toNat + 2 ≤ 0xFFF →
      ∃ t, exec (.ldB x) s = .next t ∧
        (t.mem.readByte s.i.toNat).toNat = (s.getV x).toNat / 100 ∧
        (t.mem.readByte (s.i.toNat + 1)).toNat = (s.getV x).toNat / 10 % 10 ∧
        (t.mem.readByte (s.i.toNat + 2)).toNat = (s.getV x).toNat % 10 ∧
        (∀ a, a < s.i.toNat ∨ s.i.toNat + 2 < a → t.mem.readByte a = s.mem.readByte a) ∧
        OnlyChanges [.mem] s t) ∧
    (0xFFF < s.i.toNat + 2 →
      ∃ t, exec (.ldB x) s = .next t ∧
        HaltsWith (.outOfBoundsAccess (if 0xFFF < s.i.toNat then s.i.toNat else 0x1000)) s t)

/-- `Fx55`, on a canonical memory (I unchanged is the spec's own decision D22, all-or-nothing its decision D10): V0 to
Vx at I to I + x and no other byte, I unchanged; or `OutOfBoundsAccess` with nothing written. -/
def Obligations.RegisterBlockIsStoredAtI : Prop :=
  ∀ (x : Reg) (s : State), s.mem.wf →
    (s.i.toNat + x.toNat ≤ 0xFFF →
      ∃ t, exec (.stRegs x) s = .next t ∧
        (∀ r : Reg, r.toNat ≤ x.toNat → t.mem.readByte (s.i.toNat + r.toNat) = s.getV r) ∧
        (∀ a, a < s.i.toNat ∨ s.i.toNat + x.toNat < a → t.mem.readByte a = s.mem.readByte a) ∧
        OnlyChanges [.mem] s t) ∧
    (0xFFF < s.i.toNat + x.toNat →
      ∃ t, exec (.stRegs x) s = .next t ∧
        HaltsWith (.outOfBoundsAccess (if 0xFFF < s.i.toNat then s.i.toNat else 0x1000)) s t)

/-- `Fx65` (I unchanged is the spec's own decision D22, all-or-nothing its decision D10): V0 to Vx from I to I + x and
no other register, I and memory unchanged; or `OutOfBoundsAccess` with nothing loaded. -/
def Obligations.RegisterBlockIsLoadedFromI : Prop :=
  ∀ (x : Reg) (s : State),
    (s.i.toNat + x.toNat ≤ 0xFFF →
      ∃ t, exec (.ldRegs x) s = .next t ∧
        (∀ r : Reg, r.toNat ≤ x.toNat → t.getV r = s.mem.readByte (s.i.toNat + r.toNat)) ∧
        (∀ r : Reg, x.toNat < r.toNat → t.getV r = s.getV r) ∧
        OnlyChanges [.v] s t) ∧
    (0xFFF < s.i.toNat + x.toNat →
      ∃ t, exec (.ldRegs x) s = .next t ∧
        HaltsWith (.outOfBoundsAccess (if 0xFFF < s.i.toNat then s.i.toNat else 0x1000)) s t)

/-- A consequence the spec derives from its memory model (section 8 of 20_memory.md), with decision D22's `Fx55`: a
word stored by `Fx55` is what the next fetch there reads. -/
def Obligations.StoredBytesAreFetched : Prop :=
  ∀ (x r : Reg) (s : State) (p : Word), s.mem.wf → s.i.toNat + x.toNat ≤ 0xFFF → r.toNat + 1 ≤ x.toNat →
    p.toNat = s.i.toNat + r.toNat →
    ∃ t, exec (.stRegs x) s = .next t ∧
      (t.setPc p).fetch = .ok (wordOfBytes (s.getV r) (s.getV (r + 1)))

/-- Reading and storing one byte, with the bound 0xFFF and no wrapping (section 2 of 20_memory.md), on a canonical memory
(log entry 8). The last clause, that a block stored reads back, is a law of the model's own block operations: the spec
gives the single bytes, and in section 5 that a range is checked as a whole. -/
def Obligations.MemoryPrimitives : Prop :=
  ∀ s : State, s.mem.wf →
    (∀ a, a ≤ 0xFFF → s.readBlock a 1 = .ok [s.mem.readByte a]) ∧
    (∀ a, 0xFFF < a → s.readBlock a 1 = .error (.outOfBoundsAccess a)) ∧
    (∀ a b, a ≤ 0xFFF → ∃ t, s.writeBlock a [b] = .ok t ∧ t.mem.readByte a = b ∧
      (∀ c, c ≠ a → t.mem.readByte c = s.mem.readByte c) ∧ OnlyChanges [.mem] s t) ∧
    (∀ a b, 0xFFF < a → s.writeBlock a [b] = .error (.outOfBoundsAccess a)) ∧
    (∀ a bs t, s.writeBlock a bs = .ok t → t.readBlock a bs.length = .ok bs)

/-! ## Display (spec/44_display.md) -/

/-- `00E0`, R160. -/
def Obligations.ClearScreenTurnsAllPixelsOff : Prop :=
  ∀ s : State, ∃ t, exec .cls s = .next t ∧ (∀ x y, t.fb.pixel x y = false) ∧ OnlyChanges [.fb] s t

/-- `Dxyn`, sections 1 and 2 of 44_display.md (all-or-nothing is the spec's own decision D10, the case n = 0 a
consequence it derives): every pixel is the old one XOR the sprite's bit there, VF is 1 exactly where some pixel went
from on to off, no other register changes; or `OutOfBoundsAccess` with nothing drawn. -/
def Obligations.DrawTogglesTheSpritesPixels : Prop :=
  ∀ (x y : Reg) (n : BitVec 4) (s : State),
    (n = 0 ∨ s.i.toNat + n.toNat - 1 ≤ 0xFFF →
      ∃ t, exec (.drw x y n) s = .next t ∧
        (∀ px py, t.fb.pixel px py = true ↔ ¬(s.fb.pixel px py = true ↔ SpriteCovers s x y n px py)) ∧
        ((∃ px py, s.fb.pixel px py = true ∧ SpriteCovers s x y n px py) → t.getV vf = 1) ∧
        (¬(∃ px py, s.fb.pixel px py = true ∧ SpriteCovers s x y n px py) → t.getV vf = 0) ∧
        OnlyWrites [vf] s t ∧ OnlyChanges [.fb, .v] s t) ∧
    (n ≠ 0 → 0xFFF < s.i.toNat + n.toNat - 1 →
      ∃ t, exec (.drw x y n) s = .next t ∧
        HaltsWith (.outOfBoundsAccess (if 0xFFF < s.i.toNat then s.i.toNat else 0x1000)) s t)

/-- A law the spec derives (section 2 of 44_display.md, (b)): a draw on a clear screen never collides. -/
def Obligations.DrawOnClearScreenNeverCollides : Prop :=
  ∀ (x y : Reg) (n : BitVec 4) (s : State), (∀ px py, s.fb.pixel px py = false) →
    (n = 0 ∨ s.i.toNat + n.toNat - 1 ≤ 0xFFF) →
    ∃ t, exec (.drw x y n) s = .next t ∧ t.getV vf = 0 ∧
      ∀ px py, t.fb.pixel px py = true ↔ SpriteCovers s x y n px py

/-- A law the spec derives (section 2 of 44_display.md, (a)), as its draw algorithm gives it: drawing the same sprite
twice at the same position restores the screen. The second draw collides exactly where the first turned some pixel on;
that is, after a first draw on a clear screen, exactly where the sprite has a 1 (log entry 9 says why not in general).
`t'` is the state in which the second draw runs: the screen is as the first left it, and memory, I and the two
position registers are those of the first. -/
def Obligations.DrawingTwiceRestoresTheScreen : Prop :=
  ∀ (x y : Reg) (n : BitVec 4) (s t t' : State), (n = 0 ∨ s.i.toNat + n.toNat - 1 ≤ 0xFFF) →
    exec (.drw x y n) s = .next t → Keeps .fb t t' → Keeps .mem s t' → Keeps .i s t' → t'.getV x = s.getV x →
    t'.getV y = s.getV y →
    ∃ u, exec (.drw x y n) t' = .next u ∧ (∀ px py, u.fb.pixel px py = s.fb.pixel px py) ∧
      (u.getV vf = 1 ↔ ∃ px py, SpriteCovers s x y n px py ∧ s.fb.pixel px py = false) ∧
      ((∀ px py, s.fb.pixel px py = false) →
        (u.getV vf = 1 ↔ ∃ r b, r < n.toNat ∧ b < 8 ∧ (s.mem.readByte (s.i.toNat + r)).getLsbD b = true))

/-- The snapshot port is packed row by row; the packing is the spec's own decision D26. -/
def Obligations.SnapshotPacksRowByRow : Prop :=
  ∀ (s : State) (x : BitVec 6) (y : BitVec 5),
    s.snapshot.getLsbD (64 * y.toNat + x.toNat) = s.fb.pixel x y

/-! ## Keypad, timers, random (spec/45_keypad_timers_random.md) -/

/-- `Ex9E` and `ExA1`: the key of the low nibble, which is the spec's own decision D18. -/
def Obligations.KeySkipsTestTheLowNibble : Prop :=
  ∀ (x : Reg) (s : State),
    (∃ t, exec (.skp x) s = .next t ∧
      t.pc = (if s.keys.getLsbD ((s.getV x).toNat % 16) = true then s.pc + 2 else s.pc) ∧ OnlyChanges [.pc] s t) ∧
    (∃ t, exec (.sknp x) s = .next t ∧
      t.pc = (if s.keys.getLsbD ((s.getV x).toNat % 16) = true then s.pc else s.pc + 2) ∧ OnlyChanges [.pc] s t)

/-- `Fx07`, `Fx15`, `Fx18`, which the spec supplies (decision D12); the output tone follows the sound timer at once.
-/
def Obligations.TimerRegistersAreReadAndSet : Prop :=
  ∀ (x : Reg) (s : State),
    (∃ t, exec (.ldVxDt x) s = .next t ∧ t.getV x = s.dt ∧ OnlyWrites [x] s t ∧ OnlyChanges [.v] s t) ∧
    (∃ t, exec (.ldDtVx x) s = .next t ∧ t.dt = s.getV x ∧ OnlyChanges [.dt] s t) ∧
    (∃ t, exec (.ldStVx x) s = .next t ∧ t.st = s.getV x ∧ (t.tone = true ↔ s.getV x ≠ 0) ∧ OnlyChanges [.st] s t)

/-- `Cxnn`, for whatever random byte the Step samples; that the byte is a free input is the spec's own decision D17.
-/
def Obligations.RandomByteIsMasked : Prop :=
  ∀ (x : Reg) (nn : Byte) (s : State), ∃ t, exec (.rnd x nn) s = .next t ∧
    (∀ k, (t.getV x).getLsbD k = (s.rnd.getLsbD k && nn.getLsbD k)) ∧ OnlyWrites [x] s t ∧ OnlyChanges [.v] s t

/-- `Fx0A`; repeating and the lowest key are the spec's own decision D19: with no key down pc goes back by 2 and
nothing else changes; else V[x] is the least key down. -/
def Obligations.KeyWaitRepeatsOrTakesTheLowestKey : Prop :=
  ∀ (x : Reg) (s : State),
    (s.keys = 0 → ∃ t, exec (.ldVxK x) s = .next t ∧ t.pc = s.pc - 2 ∧ OnlyChanges [.pc] s t) ∧
    (s.keys ≠ 0 → ∃ t, exec (.ldVxK x) s = .next t ∧ (t.getV x).toNat < 16 ∧
      s.keys.getLsbD (t.getV x).toNat = true ∧ (∀ j, j < (t.getV x).toNat → s.keys.getLsbD j = false) ∧
      OnlyWrites [x] s t ∧ OnlyChanges [.v] s t)

/-! ## Encoding (spec/30_encoding.md) -/

/-- Every instruction, with every operand at every value, is what its own two bytes decode to, with the bytes after it
given back. -/
def Obligations.DecodeOfEncodeIsTheInstruction : Prop :=
  ∀ (i : Instr) (rest : List Byte), i.wellFormed = true →
    decodeBytes (byte0 (encode i) :: byte1 (encode i) :: rest) = .ok (i, rest)

/-- Section 5 of 30_encoding.md: every bit of a legal word is fixed or an operand, so the instruction gives the word
back. -/
def Obligations.EncodeOfDecodeIsTheWord : Prop := ∀ (w : Word) (i : Instr), decodeWord w = some i → encode i = w

/-- Section 4 of 30_encoding.md (the exactness is the spec's own decision D7): a word is an instruction exactly where
it matches a row, the row is its instruction's, and no two rows overlap. -/
def Obligations.RowsPartitionTheLegalWords : Prop :=
  opcodeRows.length = 34 ∧
  (∀ w, (decodeWord w).isSome = true ↔ ∃ r ∈ opcodeRows, r.accepts w = true) ∧
  (∀ w i, decodeWord w = some i → i.row ∈ opcodeRows ∧ i.row.accepts w = true) ∧
  (∀ r ∈ opcodeRows, ∀ r' ∈ opcodeRows, ∀ w, r.accepts w = true → r'.accepts w = true → r = r')

/-- The illegal words, by major opcode (section 5 of 30_encoding.md, the spec's own decision D7). -/
def Obligations.IllegalWordsByMajor : Prop :=
  ∀ w : Word, decodeWord w = none ↔
    (opField w = 0x0 ∧ w ≠ 0x00E0 ∧ w ≠ 0x00EE) ∨
    (opField w = 0x5 ∧ nField w ≠ 0) ∨
    (opField w = 0x8 ∧ nField w ∈ [0x8#4, 0x9#4, 0xA#4, 0xB#4, 0xC#4, 0xD#4, 0xF#4]) ∨
    (opField w = 0x9 ∧ nField w ≠ 0) ∨
    (opField w = 0xE ∧ nnField w ≠ 0x9E ∧ nnField w ≠ 0xA1) ∨
    (opField w = 0xF ∧ nnField w ∉ [0x07#8, 0x0A#8, 0x15#8, 0x18#8, 0x1E#8, 0x29#8, 0x33#8, 0x55#8, 0x65#8])

/-- Words of the opcode table, written out bit by bit, one or two of each format. -/
def Obligations.WordsOfTheTableDecode : Prop :=
  decodeWord 0b0000000011100000#16 = some .cls ∧
  decodeWord 0b0010101010111100#16 = some (.call 0xABC) ∧
  decodeWord 0b0011010101000010#16 = some (.seImm 5 0x42) ∧
  decodeWord 0b1000000100100100#16 = some (.addReg 1 2) ∧
  decodeWord 0b1010001100000000#16 = some (.ldI 0x300) ∧
  decodeWord 0b1101000100100011#16 = some (.drw 1 2 3) ∧
  decodeWord 0b1110011110011110#16 = some (.skp 7) ∧
  decodeWord 0b1111101001100101#16 = some (.ldRegs 0xA)

/-! ## The Step (spec/40_step_cycle.md, spec/60_exceptions.md) -/

/-- R100: where the bytes at pc decode to an instruction, the step is that instruction's execute phase in the state
with the inputs sampled and pc advanced by 2. -/
def Obligations.StepRunsTheDecodedInstruction : Prop :=
  ∀ (s t : State) (i : Instr), AboutToStep s t → s.halted = false → s.pc.toNat ≤ 0xFFE →
    decodeWord (wordAt s.mem s.pc.toNat) = some i → i.wellFormed = true → step s = exec i { t with pc := s.pc + 2 }

/-- An illegal word halts, which is the spec's own decision D8: `DecodeError`, pc after the word, nothing else
changed. -/
def Obligations.IllegalWordHaltsWithDecodeError : Prop :=
  ∀ s t : State, AboutToStep s t → s.halted = false → s.pc.toNat ≤ 0xFFE →
    decodeWord (wordAt s.mem s.pc.toNat) = none →
    ∃ u, step s = .next u ∧ u.pc = s.pc + 2 ∧ u.halted = true ∧ u.err = .decodeError ∧
      u.report = some (.decodeError (wordAt s.mem s.pc.toNat)) ∧ OnlyChanges [.pc, .halted, .err, .report] t u

/-- R101: a fetch at pc up to 0xFFE reads the two bytes there, big-endian, with no alignment requirement; above that a
Step halts with `OutOfBoundsAccess`, pc not advanced, and the address max(pc, 0x1000). -/
def Obligations.FetchReadsTwoBytesOrHalts : Prop :=
  (∀ s : State, s.pc.toNat ≤ 0xFFE → s.fetch = .ok (wordAt s.mem s.pc.toNat)) ∧
  (∀ s t : State, AboutToStep s t → s.halted = false → 0xFFE < s.pc.toNat →
    ∃ u, step s = .next u ∧ HaltsWith (.outOfBoundsAccess (max s.pc.toNat 0x1000)) t u)

/-- A Step of a halted core changes nothing, which is the spec's own decision D11. -/
def Obligations.HaltedStepChangesNothing : Prop :=
  ∀ s t : State, AboutToStep s t → s.halted = true → ∃ u, step s = .next u ∧ SameMachine s u

/-- The skip law: a Step that runs a skip ends at pc0 + 4 where the condition holds and at pc0 + 2 where it does not, and
the skipped word plays no part: only pc changes (R117). The conditions of `9xy0`, `Ex9E` and `ExA1` are the spec's own
decisions D12 and D18 (log entry 10). -/
def Obligations.SkipStepsAdvanceFourOrTwo : Prop :=
  ∀ (s t : State) (i : Instr) (c : Prop), AboutToStep s t → s.halted = false → s.pc.toNat ≤ 0xFFE →
    decodeWord (wordAt s.mem s.pc.toNat) = some i → skipCondition i t = some c →
    ∃ u, step s = .next u ∧ (c → u.pc = s.pc + 4) ∧ (¬c → u.pc = s.pc + 2) ∧ OnlyChanges [.pc] t u

/-- Section 5 of 70_reset_and_hazards.md (the spec's own decision D30): a jump to its own address is a fixed point of
the machine. -/
def Obligations.JumpToSelfIsAFixedPoint : Prop :=
  ∀ s t : State, AboutToStep s t → s.ended → ∃ u, step s = .next u ∧ SameMachine s u ∧ u.ended

/-- Section 2 of 60_exceptions.md (the spec's own decision D10): an error is precise. A Step that halts a running core
changes nothing of it but halted, err and pc; pc is pc0 after a fetch error and pc0 + 2 after any other, and the error
reported is the one recorded. -/
def Obligations.ErrorsArePrecise : Prop :=
  ∀ s t u : State, AboutToStep s t → s.halted = false → step s = .next u → u.halted = true →
    ∃ e : Report, u.report = some e ∧ u.err = e.code ∧ u.err ≠ .none ∧ u.err ≠ .loadError ∧
      OnlyChanges [.pc, .halted, .err, .report] t u ∧
      (0xFFE < s.pc.toNat → u.pc = s.pc ∧ u.err = .outOfBoundsAccess) ∧
      (s.pc.toNat ≤ 0xFFE → u.pc = s.pc + 2)

/-- Section 3 of 60_exceptions.md (the spec's own decision D11): a halted core starts to run again only by Reset, and
its error is kept until then. -/
def Obligations.OnlyResetLeavesHalted : Prop :=
  ∀ s u : State, s.halted = true → step s = .next u → (∀ t, ¬Takes .reset s t) → u.halted = true ∧ u.err = s.err

/-- No step of any state ends in a fault or a refusal: every error of R200 is a halt, and every instruction has its
effect. -/
def Obligations.EveryStepHasANextState : Prop := ∀ s : State, ∃ t, step s = .next t

/-! ## The other events (spec/20_memory.md R63, spec/60_exceptions.md, spec/70_reset_and_hazards.md) -/

/-- Section 5 of 60_exceptions.md (the spec's own decision D24): a Tick takes both timers down by one and stops at 0,
in either FSM state. Here and below `u` is `s` with the event taken off the schedule (log entry 1). -/
def Obligations.TickDecrementsBothTimers : Prop :=
  ∀ s u : State, Takes .tick s u →
    ∃ t, step s = .next t ∧ t.dt.toNat = s.dt.toNat - 1 ∧ t.st.toNat = s.st.toNat - 1 ∧ t.pending = u.pending ∧
      OnlyChanges [.dt, .st] u t

/-- Section 3 of 60_exceptions.md (the spec's own decision D11): a Stop halts, keeps err and executes nothing; on a
halted core nothing changes. -/
def Obligations.StopHaltsAndKeepsErr : Prop :=
  ∀ s u : State, Takes .stop s u →
    ∃ t, step s = .next t ∧ t.halted = true ∧ (s.Inv → s.halted = false → t.err = .none) ∧ t.pending = u.pending ∧
      OnlyChanges [.halted] u t

/-- Section 7 of 20_memory.md, on a canonical memory (all-or-nothing is the spec's own decision D25): a Load that fits
stores its bytes and nothing else; one that does not is reported and changes nothing. -/
def Obligations.LoadStoresItsBytesOrFails : Prop :=
  ∀ (s u : State) (bytes : List Byte) (start : Nat), s.mem.wf → Takes (.load bytes start) s u →
    (start + bytes.length ≤ 4096 →
      ∃ t, step s = .next t ∧ (∀ k (h : k < bytes.length), t.mem.readByte (start + k) = bytes[k]'h) ∧
        (∀ a, a < start ∨ start + bytes.length ≤ a → t.mem.readByte a = s.mem.readByte a) ∧ t.report = none ∧
        t.pending = u.pending ∧ OnlyChanges [.mem] u t) ∧
    (4096 < start + bytes.length →
      ∃ t, step s = .next t ∧ t.report = some (.loadError start bytes.length) ∧ t.pending = u.pending ∧
        OnlyChanges [.report] u t)

/-- Section 1 of 70_reset_and_hazards.md (pc, the timers, the stack slots and the status by the spec's own decisions
D4 and D5): a Reset event gives every piece of state its reset value, in either FSM state; the outside world's schedule
goes on (log entry 7). -/
def Obligations.ResetEventGivesTheResetValues : Prop :=
  ∀ s u : State, Takes .reset s u →
    ∃ t, step s = .next t ∧ AtReset t ∧ t.pending = u.pending ∧ t.onward = u.onward ∧ t.draws = u.draws

/-- Section 10 of 10_state.md (pc, the timers, the stack slots and the status by the spec's own decisions D4 and D5):
the values of the reset state. -/
def Obligations.ResetStateHasTheResetValues : Prop := AtReset State.reset

/-! ## The whole machine -/

/-- Every step, whatever the event, keeps the invariant: canonical memory (the model's own), pc at most 0x10FE and
valid stack entries at most 0x1000 (bounds the spec derives in section 4 of 10_state.md), no error while running and
never a stored LoadError. -/
def Obligations.EveryStepKeepsTheInvariant : Prop := ∀ s t : State, s.Inv → step s = .next t → t.Inv

/-- The reset state meets the invariant. -/
def Obligations.ResetMeetsTheInvariant : Prop := State.reset.Inv

/-- A law the spec derives (section 2 of 44_display.md, (d)): of the instructions only `00E0` and `Dxyn` change the
display. -/
def Obligations.OnlyDisplayInstructionsDraw : Prop :=
  ∀ (i : Instr) (s t : State), i ≠ .cls → (∀ x y n, i ≠ .drw x y n) → exec i s = .next t → Keeps .fb s t

/-- Section 4 of 10_state.md (`Fx0A` by the spec's own decision D19): of the instructions only jumps, call, return,
skips and `Fx0A` change pc beyond the advance. -/
def Obligations.OnlyTransfersSetPc : Prop :=
  ∀ (i : Instr) (s t : State), i.setsPc = false → exec i s = .next t → t.pc = s.pc

/-- Section 2 of 20_memory.md: of the instructions only `Fx33` and `Fx55` write memory. -/
def Obligations.OnlyTwoInstructionsStore : Prop :=
  ∀ (i : Instr) (s t : State), i.storesToMemory = false → exec i s = .next t → Keeps .mem s t

/-- Section 1 of 40_step_cycle.md: the inputs of a Step reach no instruction but the key instructions and `Cxnn`. -/
def Obligations.InputsReachOnlyFourInstructions : Prop :=
  ∀ (i : Instr) (s : State) (k : BitVec 16) (r : Byte), i.readsInput = false →
    exec i (s.sample k r) = mapNext (fun t => t.sample k r) (exec i s)

/-- The outputs tone and STATUS (sections 7 and 8 of 10_state.md; the layout of STATUS and the numbers of the codes, in
section 1 of 60_exceptions.md, are the spec's own decision D9). `LoadError` is 5 and is never stored. -/
def Obligations.ToneAndStatusOutputs : Prop :=
  (∀ s : State, (s.tone = true ↔ 0 < s.st.toNat) ∧
    s.status.toNat = (if s.halted = true then 8 else 0) + s.err.bits.toNat ∧
    (s.Inv → s.err.bits.toNat ≤ 4)) ∧
  ErrorCode.none.bits = 0 ∧ ErrorCode.decodeError.bits = 1 ∧ ErrorCode.outOfBoundsAccess.bits = 2 ∧
  ErrorCode.stackOverflow.bits = 3 ∧ ErrorCode.stackUnderflow.bits = 4 ∧ ErrorCode.loadError.bits = 5
end

