-- ==== Sys2Proof/Laws/Decode.lean ====
section
/-! SUPPORT. The fields of words that are put together from nibbles (spec/30_encoding.md R81, R82), for the encoder's
shapes NNN, XNN, XY and X. -/

namespace Sys2Proof

/-! ## Fields of appended bit vectors -/

/-- A field that lies in the left part. -/
theorem extract_append_left {n m : Nat} (a : BitVec n) (b : BitVec m) (k len : Nat) :
    (a ++ b).extractLsb' (m + k) len = a.extractLsb' k len := by
  apply BitVec.eq_of_getLsbD_eq
  intro j _
  have h1 : ¬m + k + j < m := by omega
  have h2 : m + k + j - m = k + j := by omega
  simp only [BitVec.getLsbD_extractLsb', BitVec.getLsbD_append, if_neg h1, h2]

/-- A field that lies in the right part. -/
theorem extract_append_right {n m : Nat} (a : BitVec n) (b : BitVec m) (k len : Nat) (h : k + len ≤ m) :
    (a ++ b).extractLsb' k len = b.extractLsb' k len := by
  apply BitVec.eq_of_getLsbD_eq
  intro j hj
  have h1 : k + j < m := by omega
  simp only [BitVec.getLsbD_extractLsb', BitVec.getLsbD_append, if_pos h1]

/-! ## op ++ nnn -/

@[simp] theorem opField_nnn (op : BitVec 4) (nnn : BitVec 12) : opField (op ++ nnn) = op :=
  (extract_append_left op nnn 0 4).trans BitVec.extractLsb'_eq_self

@[simp] theorem nnnField_nnn (op : BitVec 4) (nnn : BitVec 12) : nnnField (op ++ nnn) = nnn :=
  (extract_append_right op nnn 0 12 (by omega)).trans BitVec.extractLsb'_eq_self

/-! ## op ++ x ++ nn -/

@[simp] theorem opField_xnn (op x : BitVec 4) (nn : BitVec 8) : opField (op ++ x ++ nn) = op :=
  (extract_append_left (op ++ x) nn 4 4).trans <|
    (extract_append_left op x 0 4).trans BitVec.extractLsb'_eq_self

@[simp] theorem xField_xnn (op x : BitVec 4) (nn : BitVec 8) : xField (op ++ x ++ nn) = x :=
  (extract_append_left (op ++ x) nn 0 4).trans <|
    (extract_append_right op x 0 4 (by omega)).trans BitVec.extractLsb'_eq_self

@[simp] theorem nnField_xnn (op x : BitVec 4) (nn : BitVec 8) : nnField (op ++ x ++ nn) = nn :=
  (extract_append_right (op ++ x) nn 0 8 (by omega)).trans BitVec.extractLsb'_eq_self

/-! ## op ++ x ++ y ++ n -/

@[simp] theorem opField_xyn (op x y n : BitVec 4) : opField (op ++ x ++ y ++ n) = op :=
  (extract_append_left (op ++ x ++ y) n 8 4).trans <|
    (extract_append_left (op ++ x) y 4 4).trans <|
      (extract_append_left op x 0 4).trans BitVec.extractLsb'_eq_self

@[simp] theorem xField_xyn (op x y n : BitVec 4) : xField (op ++ x ++ y ++ n) = x :=
  (extract_append_left (op ++ x ++ y) n 4 4).trans <|
    (extract_append_left (op ++ x) y 0 4).trans <|
      (extract_append_right op x 0 4 (by omega)).trans BitVec.extractLsb'_eq_self

@[simp] theorem yField_xyn (op x y n : BitVec 4) : yField (op ++ x ++ y ++ n) = y :=
  (extract_append_left (op ++ x ++ y) n 0 4).trans <|
    (extract_append_right (op ++ x) y 0 4 (by omega)).trans BitVec.extractLsb'_eq_self

@[simp] theorem nField_xyn (op x y n : BitVec 4) : nField (op ++ x ++ y ++ n) = n :=
  (extract_append_right (op ++ x ++ y) n 0 4 (by omega)).trans BitVec.extractLsb'_eq_self

/-! ## A word is its fields -/

/-- The four nibbles of a word, put together, are the word. -/
theorem append_fields_xyn (w : Word) : opField w ++ xField w ++ yField w ++ nField w = w := by
  apply BitVec.eq_of_getLsbD_eq
  intro k hk
  simp only [opField, xField, yField, nField, BitVec.getLsbD_append, BitVec.getLsbD_extractLsb']
  have : k = 0 ∨ k = 1 ∨ k = 2 ∨ k = 3 ∨ k = 4 ∨ k = 5 ∨ k = 6 ∨ k = 7 ∨ k = 8 ∨ k = 9 ∨ k = 10 ∨ k = 11 ∨ k = 12 ∨
    k = 13 ∨ k = 14 ∨ k = 15 := by omega
  rcases this with rfl | rfl | rfl | rfl | rfl | rfl | rfl | rfl | rfl | rfl | rfl | rfl | rfl | rfl | rfl | rfl <;> simp

/-- `nn` is `y` and `n` (R81). -/
theorem nnField_eq (w : Word) : nnField w = yField w ++ nField w := by
  apply BitVec.eq_of_getLsbD_eq
  intro k hk
  simp only [nnField, yField, nField, BitVec.getLsbD_append, BitVec.getLsbD_extractLsb']
  have : k = 0 ∨ k = 1 ∨ k = 2 ∨ k = 3 ∨ k = 4 ∨ k = 5 ∨ k = 6 ∨ k = 7 := by omega
  rcases this with rfl | rfl | rfl | rfl | rfl | rfl | rfl | rfl <;> simp

/-- Op, x and nn of a word, put together, are the word. -/
theorem append_fields_xnn (w : Word) : opField w ++ xField w ++ nnField w = w := by
  rw [nnField_eq]
  conv_rhs => rw [← append_fields_xyn w]
  exact (BitVec.append_assoc (x₁ := opField w ++ xField w) (x₂ := yField w) (x₃ := nField w)).symm ▸ rfl

/-- Op and nnn of a word, put together, are the word. -/
theorem append_fields_nnn (w : Word) : opField w ++ nnnField w = w := by
  apply BitVec.eq_of_getLsbD_eq
  intro k hk
  simp only [opField, nnnField]
  rw [show (BitVec.extractLsb' 12 4 w ++ BitVec.extractLsb' 0 12 w).getLsbD k = _ from BitVec.getLsbD_append]
  simp only [BitVec.getLsbD_extractLsb']
  split
  · simp [*]
  · rw [show 12 + (k - 12) = k by omega]
    simp
    omega

/-! ## Bytes of a word (R55) -/

/-- The two bytes of a word, put together big-endian, are the word. -/
@[simp] theorem wordOfBytes_bytes (w : Word) : wordOfBytes (byte0 w) (byte1 w) = w := by
  apply BitVec.eq_of_getLsbD_eq
  intro k hk
  simp only [wordOfBytes, byte0, byte1, BitVec.getLsbD_append, BitVec.getLsbD_extractLsb']
  by_cases h : k < 8
  · simp [h]
  · have h1 : k - 8 < 8 := by omega
    have h2 : 8 + (k - 8) = k := by omega
    simp [h, h1, h2]

end Sys2Proof
end

