-- ==== Sys2Proof/Laws/Draw.lean ====
section
/-! SUPPORT. What the draw unit does (spec/44_display.md R162 to R164, R167 (c)): the framebuffer after a draw is the old
one XOR the sprite's footprint, and the collision is true exactly where some pixel of the footprint was on. -/

namespace Sys2Proof.Machine

theorem Framebuffer.pixel_toggle (fb : Framebuffer) (x px : BitVec 6) (y py : BitVec 5) :
    (fb.toggle x y).pixel px py = (fb.pixel px py ^^ (decide (px = x) && decide (py = y))) := by
  have hx : (x.toNat = px.toNat) = (px = x) := propext (by rw [BitVec.toNat_inj, eq_comm])
  have hy : (y.toNat = py.toNat) = (py = y) := propext (by rw [BitVec.toNat_inj, eq_comm])
  unfold Framebuffer.pixel Framebuffer.toggle
  rw [Vector.getElem_set]
  by_cases h : y.toNat = py.toNat
  · have hpy : py = y := by rw [← hy]; exact h
    subst hpy
    have h6 : x.toNat < 64 := x.isLt
    simp [BitVec.getLsbD_xor, BitVec.getLsbD_twoPow, hx, h6]
  · rw [if_neg h]
    have : py ≠ y := by rintro rfl; exact h rfl
    simp [this]

/-- Two framebuffers with the same pixels are the same. -/
theorem Framebuffer.ext_pixel {f g : Framebuffer} (h : ∀ x y, f.pixel x y = g.pixel x y) : f = g := by
  apply Vector.ext
  intro k hk
  apply BitVec.eq_of_getLsbD_eq
  intro j hj
  have := h (BitVec.ofNat 6 j) (BitVec.ofNat 5 k)
  simpa [Framebuffer.pixel, Nat.mod_eq_of_lt hk, Nat.mod_eq_of_lt hj] using this

@[simp] theorem Framebuffer.pixel_clear (x : BitVec 6) (y : BitVec 5) : Framebuffer.clear.pixel x y = false := by
  simp [Framebuffer.pixel, Framebuffer.clear]

/-- A set of pixels is toggled from one drawing to the next, with the collision that R162 gives it: the shape of every
operation of the draw unit. -/
structure Drawing.Toggles (P : BitVec 6 → BitVec 5 → Prop) (d e : Drawing) : Prop where
  pixel : ∀ px py, e.fb.pixel px py = true ↔ ¬(d.fb.pixel px py = true ↔ P px py)
  collision : e.collision = true ↔ d.collision = true ∨ ∃ px py, P px py ∧ d.fb.pixel px py = true

/-- Toggling two disjoint sets one after the other toggles their union. -/
theorem Drawing.Toggles.trans {P Q R : BitVec 6 → BitVec 5 → Prop} {d e f : Drawing} (h1 : Toggles P d e)
    (h2 : Toggles Q e f) (disjoint : ∀ px py, P px py → ¬Q px py) (union : ∀ px py, R px py ↔ P px py ∨ Q px py) :
    Toggles R d f where
  pixel px py := by
    have a := h1.pixel px py
    have b := h2.pixel px py
    have c := disjoint px py
    have u := union px py
    tauto
  collision := by
    rw [h2.collision, h1.collision]
    constructor
    · rintro ((h | ⟨px, py, hp, ho⟩) | ⟨px, py, hq, ho⟩)
      · exact .inl h
      · exact .inr ⟨px, py, (union px py).mpr (.inl hp), ho⟩
      · refine .inr ⟨px, py, (union px py).mpr (.inr hq), ?_⟩
        have a := h1.pixel px py
        have c := disjoint px py
        tauto
    · rintro (h | ⟨px, py, hr, ho⟩)
      · exact .inl (.inl h)
      · rcases (union px py).mp hr with hp | hq
        · exact .inl (.inr ⟨px, py, hp, ho⟩)
        · refine .inr ⟨px, py, hq, ?_⟩
          have a := h1.pixel px py
          have c := disjoint px py
          tauto

/-- One sprite bit toggles its own pixel if it is 1 and nothing otherwise. -/
theorem Drawing.toggles_plot (d : Drawing) (x : BitVec 6) (y : BitVec 5) (bit : Bool) :
    Toggles (fun px py => bit = true ∧ px = x ∧ py = y) d (d.plot x y bit) := by
  cases bit with
  | false => exact ⟨by simp [Drawing.plot], by simp [Drawing.plot]⟩
  | true =>
    refine ⟨fun px py => ?_, ?_⟩
    · by_cases h : px = x ∧ py = y
      · obtain ⟨rfl, rfl⟩ := h
        simp [Drawing.plot, Framebuffer.pixel_toggle]
      · have : (decide (px = x) && decide (py = y)) = false := by simpa using h
        simp [Drawing.plot, Framebuffer.pixel_toggle, this, h]
    · simp [Drawing.plot]

/-- The first m bits of a sprite byte at row y toggle the columns x + b whose bit is 1. -/
theorem Drawing.toggles_bits (d : Drawing) (x : BitVec 6) (y : BitVec 5) (byte : Byte) (m : Nat) (hm : m ≤ 8) :
    Toggles (fun px py => ∃ b, b < m ∧ byte.getLsbD (7 - b) = true ∧ px.toNat = (x.toNat + b) % 64 ∧ py = y) d
      ((List.range m).foldl (fun d b => d.plot (x + BitVec.ofNat 6 b) y (byte.getLsbD (7 - b))) d) := by
  induction m with
  | zero => exact ⟨by simp, by simp⟩
  | succ m ih =>
    rw [List.range_succ, List.foldl_append]
    refine (ih (by omega)).trans (Drawing.toggles_plot _ _ _ _) ?_ ?_
    · rintro px py ⟨b, hb, _, hpx, _⟩ ⟨_, hpx', _⟩
      have : px.toNat = (x.toNat + m) % 64 := by rw [hpx']; simp
      omega
    · intro px py
      have key : px = x + BitVec.ofNat 6 m ↔ px.toNat = (x.toNat + m) % 64 := by
        rw [← BitVec.toNat_inj]; simp
      constructor
      · rintro ⟨b, hb, h1, h2, h3⟩
        rcases Nat.lt_succ_iff_lt_or_eq.mp hb with hb | rfl
        · exact .inl ⟨b, hb, h1, h2, h3⟩
        · exact .inr ⟨h1, key.mpr h2, h3⟩
      · rintro (⟨b, hb, h⟩ | ⟨h1, h2, h3⟩)
        · exact ⟨b, by omega, h⟩
        · exact ⟨m, by omega, h1, key.mp h2, h3⟩

/-- The footprint of a sprite at column x, row y (R162, R164): row r, bit b of it at ((x + b) mod 64, (y + r) mod 32). -/
def footprint (x : BitVec 6) (y : BitVec 5) (rows : List Byte) (px : BitVec 6) (py : BitVec 5) : Prop :=
  ∃ r b, ∃ h : r < rows.length, b < 8 ∧ rows[r].getLsbD (7 - b) = true ∧ px.toNat = (x.toNat + b) % 64 ∧
    py.toNat = (y.toNat + r) % 32

/-- A run of sprite rows toggles its footprint; no pixel twice, since there are at most 32 rows (R163). -/
theorem Drawing.toggles_plotRows (d : Drawing) (x : BitVec 6) (y : BitVec 5) (rows : List Byte)
    (h : rows.length ≤ 32) : Toggles (footprint x y rows) d (d.plotRows x y rows) := by
  induction rows generalizing d y with
  | nil => exact ⟨by simp [footprint, Drawing.plotRows], by simp [footprint, Drawing.plotRows]⟩
  | cons byte rows ih =>
    simp only [List.length_cons] at h
    have hy1 : (y + 1).toNat = (y.toNat + 1) % 32 := by simp
    refine (Drawing.toggles_bits d x y byte 8 (by omega)).trans (ih _ (y + 1) (by omega)) ?_ ?_
    · rintro px py ⟨_, _, _, _, rfl⟩ ⟨r, _, hr, _, _, _, hpy⟩
      have := py.isLt
      omega
    · intro px py
      constructor
      · rintro ⟨r, b, hr, hb, h1, h2, h3⟩
        cases r with
        | zero =>
          refine .inl ⟨b, hb, by simpa using h1, h2, ?_⟩
          rw [← BitVec.toNat_inj]
          have := y.isLt
          omega
        | succ r =>
          refine .inr ⟨r, b, by simpa using hr, hb, by simpa using h1, h2, ?_⟩
          omega
      · rintro (⟨b, hb, h1, h2, rfl⟩ | ⟨r, b, hr, hb, h1, h2, h3⟩)
        · refine ⟨0, b, by simp, hb, by simpa using h1, h2, ?_⟩
          have := py.isLt
          omega
        · refine ⟨r + 1, b, by simpa using hr, hb, by simpa using h1, h2, ?_⟩
          omega

/-- `draw_sprite` toggles the sprite's footprint and collides exactly where a pixel of it was on (R162, R163, R167 (c)). -/
theorem toggles_drawSprite (fb : Framebuffer) (x : BitVec 6) (y : BitVec 5) (rows : List Byte)
    (h : rows.length ≤ 32) :
    Drawing.Toggles (footprint x y rows) { fb := fb, collision := false } (drawSprite fb x y rows) :=
  Drawing.toggles_plotRows _ x y rows h

end Sys2Proof.Machine
end

