-- ==== Sys2Proof/Laws/Memory.lean ====
section
/-! SUPPORT. What memory operations do: a read after a write to the same place gives the value written, a write leaves
every other place alone, and every operation keeps the canonical form. -/

namespace Sys2Proof.Machine

/-! ## One byte -/

@[simp] theorem Memory.readByte_nil (a : Nat) : Memory.readByte [] a = Config.unlistedByte := rfl

@[simp] theorem Memory.readByte_cons (c : Host.Cell) (m : Memory) (a : Nat) :
    Memory.readByte (c :: m) a = if c.1 = a then c.2 else m.readByte a := rfl

/-- An address below every entry reads as unlisted. -/
theorem Memory.readByte_of_lt (m : Memory) (a : Nat) (h : ∀ c ∈ m, a < c.1) :
    m.readByte a = Config.unlistedByte := by
  induction m with
  | nil => rfl
  | cons c m ih =>
    have hc : c.1 ≠ a := by have := h c (by simp); omega
    simp only [readByte_cons, if_neg hc]
    exact ih fun d hd => h d (by simp [hd])

/-- A byte put in front of the larger addresses reads back, and the others are as they were. -/
theorem Memory.readByte_consByte (m : Memory) (a b : Nat) (v : Byte) (h : ∀ c ∈ m, a < c.1) :
    (Memory.consByte a v m).readByte b = if a = b then v else m.readByte b := by
  unfold Memory.consByte
  split
  · rename_i hv
    subst hv
    split
    · rename_i hab
      subst hab
      exact Memory.readByte_of_lt m a h
    · rfl
  · simp

/-- Read after write, on a memory whose addresses rise (R52, R53). -/
theorem Memory.readByte_writeByte (m : Memory) (hm : m.Pairwise fun c d => c.1 < d.1) (a b : Nat) (v : Byte) :
    (m.writeByte a v).readByte b = if a = b then v else m.readByte b := by
  induction m with
  | nil => exact Memory.readByte_consByte [] a b v (by simp)
  | cons c m ih =>
    rw [List.pairwise_cons] at hm
    unfold Memory.writeByte
    split
    · rename_i hlt
      rw [readByte_cons, ih hm.2, readByte_cons]
      split_ifs <;> first | rfl | omega
    · split
      · rename_i _ heq
        rw [Memory.readByte_consByte m a b v (by intro d hd; have := hm.1 d hd; omega), readByte_cons]
        split_ifs <;> first | rfl | omega
      · rename_i hnlt hne
        refine Memory.readByte_consByte (c :: m) a b v ?_
        intro d hd
        rcases List.mem_cons.mp hd with rfl | hd
        · omega
        · have := hm.1 d hd
          omega

/-- A write adds no entry but its own. -/
theorem Memory.mem_writeByte {m : Memory} {a : Nat} {v : Byte} {c : Host.Cell} (h : c ∈ m.writeByte a v) :
    c ∈ m ∨ c = (a, v) ∧ v ≠ Config.unlistedByte := by
  induction m with
  | nil =>
    simp only [Memory.writeByte, Memory.consByte] at h
    split at h <;> simp_all
  | cons d m ih =>
    simp only [Memory.writeByte, Memory.consByte] at h
    split at h
    · rcases List.mem_cons.mp h with rfl | h
      · simp
      · rcases ih h with h | h
        · simp [h]
        · exact Or.inr h
    · split at h <;> split at h <;> simp_all <;> tauto

/-- A write keeps the addresses rising. -/
theorem Memory.pairwise_writeByte (m : Memory) (hm : m.Pairwise fun c d => c.1 < d.1) (a : Nat) (v : Byte) :
    (m.writeByte a v).Pairwise fun c d => c.1 < d.1 := by
  induction m with
  | nil =>
    simp only [Memory.writeByte, Memory.consByte]
    split <;> simp
  | cons c m ih =>
    have hcm := List.pairwise_cons.mp hm
    simp only [Memory.writeByte, Memory.consByte]
    split
    · rename_i hlt
      refine List.pairwise_cons.mpr ⟨?_, ih hcm.2⟩
      intro d hd
      rcases Memory.mem_writeByte hd with hd | ⟨rfl, _⟩
      · exact hcm.1 d hd
      · exact hlt
    · split
      · rename_i _ heq
        split
        · exact hcm.2
        · refine List.pairwise_cons.mpr ⟨?_, hcm.2⟩
          intro d hd
          have := hcm.1 d hd
          show a < d.1
          omega
      · split
        · exact hm
        · refine List.pairwise_cons.mpr ⟨?_, hm⟩
          intro d hd
          show a < d.1
          rcases List.mem_cons.mp hd with rfl | hd
          · omega
          · have := hcm.1 d hd
            omega

/-- A write inside memory keeps the canonical form. -/
theorem Memory.wf_writeByte {m : Memory} (hm : m.wf) {a : Nat} (ha : a < Config.memSize) (v : Byte) :
    (m.writeByte a v).wf := by
  refine ⟨Memory.pairwise_writeByte m hm.1 a v, ?_⟩
  intro c hc
  rcases Memory.mem_writeByte hc with hc | ⟨rfl, hv⟩
  · exact hm.2 c hc
  · exact ⟨ha, hv⟩

/-! ## Blocks -/

@[simp] theorem Memory.length_readBytes (m : Memory) (a n : Nat) : (m.readBytes a n).length = n := by
  simp [Memory.readBytes]

theorem Memory.getElem_readBytes (m : Memory) (a n k : Nat) (h : k < (m.readBytes a n).length) :
    (m.readBytes a n)[k] = m.readByte (a + k) := by
  simp [Memory.readBytes]

theorem Memory.pairwise_writeBytes (m : Memory) (hm : m.Pairwise fun c d => c.1 < d.1) (a : Nat) (bs : List Byte) :
    (m.writeBytes a bs).Pairwise fun c d => c.1 < d.1 := by
  induction bs generalizing m a with
  | nil => exact hm
  | cons b bs ih => exact ih _ (Memory.pairwise_writeByte m hm a b) _

/-- A block store keeps the canonical form where the block lies in memory. -/
theorem Memory.wf_writeBytes {m : Memory} (hm : m.wf) {a : Nat} {bs : List Byte}
    (h : a + bs.length ≤ Config.memSize) : (m.writeBytes a bs).wf := by
  induction bs generalizing m a with
  | nil => exact hm
  | cons b bs ih =>
    simp only [List.length_cons] at h
    exact ih (Memory.wf_writeByte hm (by omega) b) (by omega)

/-- What a block store does: byte k of the block at a + k, and every other byte as it was. -/
theorem Memory.readByte_writeBytes (m : Memory) (hm : m.Pairwise fun c d => c.1 < d.1) (a : Nat) (bs : List Byte)
    (b : Nat) :
    (m.writeBytes a bs).readByte b = if h : a ≤ b ∧ b < a + bs.length then bs[b - a]'(by omega) else m.readByte b := by
  induction bs generalizing m a with
  | nil =>
    rw [dif_neg (by simp)]
    rfl
  | cons v bs ih =>
    show ((m.writeByte a v).writeBytes (a + 1) bs).readByte b = _
    rw [ih _ (Memory.pairwise_writeByte m hm a v), Memory.readByte_writeByte m hm]
    simp only [List.length_cons]
    by_cases h1 : a + 1 ≤ b ∧ b < a + 1 + bs.length
    · rw [dif_pos h1, dif_pos (by omega)]
      have : b - a = (b - (a + 1)) + 1 := by omega
      simp [this]
    · rw [dif_neg h1]
      by_cases h2 : a = b
      · subst h2
        simp
      · rw [if_neg h2, dif_neg (by omega)]

/-- The memory after reset is canonical. -/
theorem Memory.wf_reset : State.reset.mem.wf := by decide

end Sys2Proof.Machine
end

