-- ==== Sys2Proof/Laws/State.lean ====
section
/-! SUPPORT. One lemma per field per update, each true by rfl, so that no later proof unfolds a record update. -/

namespace Sys2Proof.Machine

variable (s : State)

/-! ## setV -/

@[simp] theorem State.setV_mem (r : Reg) (b : Byte) : (s.setV r b).mem = s.mem := rfl
@[simp] theorem State.setV_v (r : Reg) (b : Byte) : (s.setV r b).v = s.v.set r.toNat b r.isLt := rfl
@[simp] theorem State.setV_i (r : Reg) (b : Byte) : (s.setV r b).i = s.i := rfl
@[simp] theorem State.setV_pc (r : Reg) (b : Byte) : (s.setV r b).pc = s.pc := rfl
@[simp] theorem State.setV_stack (r : Reg) (b : Byte) : (s.setV r b).stack = s.stack := rfl
@[simp] theorem State.setV_sp (r : Reg) (b : Byte) : (s.setV r b).sp = s.sp := rfl
@[simp] theorem State.setV_dt (r : Reg) (b : Byte) : (s.setV r b).dt = s.dt := rfl
@[simp] theorem State.setV_st (r : Reg) (b : Byte) : (s.setV r b).st = s.st := rfl
@[simp] theorem State.setV_halted (r : Reg) (b : Byte) : (s.setV r b).halted = s.halted := rfl
@[simp] theorem State.setV_err (r : Reg) (b : Byte) : (s.setV r b).err = s.err := rfl
@[simp] theorem State.setV_fb (r : Reg) (b : Byte) : (s.setV r b).fb = s.fb := rfl
@[simp] theorem State.setV_keys (r : Reg) (b : Byte) : (s.setV r b).keys = s.keys := rfl
@[simp] theorem State.setV_rnd (r : Reg) (b : Byte) : (s.setV r b).rnd = s.rnd := rfl
@[simp] theorem State.setV_report (r : Reg) (b : Byte) : (s.setV r b).report = s.report := rfl
@[simp] theorem State.setV_pending (r : Reg) (b : Byte) : (s.setV r b).pending = s.pending := rfl
@[simp] theorem State.setV_onward (r : Reg) (b : Byte) : (s.setV r b).onward = s.onward := rfl
@[simp] theorem State.setV_draws (r : Reg) (b : Byte) : (s.setV r b).draws = s.draws := rfl

/-! ## setI -/

@[simp] theorem State.setI_mem (w : Word) : (s.setI w).mem = s.mem := rfl
@[simp] theorem State.setI_v (w : Word) : (s.setI w).v = s.v := rfl
@[simp] theorem State.setI_i (w : Word) : (s.setI w).i = w := rfl
@[simp] theorem State.setI_pc (w : Word) : (s.setI w).pc = s.pc := rfl
@[simp] theorem State.setI_stack (w : Word) : (s.setI w).stack = s.stack := rfl
@[simp] theorem State.setI_sp (w : Word) : (s.setI w).sp = s.sp := rfl
@[simp] theorem State.setI_dt (w : Word) : (s.setI w).dt = s.dt := rfl
@[simp] theorem State.setI_st (w : Word) : (s.setI w).st = s.st := rfl
@[simp] theorem State.setI_halted (w : Word) : (s.setI w).halted = s.halted := rfl
@[simp] theorem State.setI_err (w : Word) : (s.setI w).err = s.err := rfl
@[simp] theorem State.setI_fb (w : Word) : (s.setI w).fb = s.fb := rfl
@[simp] theorem State.setI_keys (w : Word) : (s.setI w).keys = s.keys := rfl
@[simp] theorem State.setI_rnd (w : Word) : (s.setI w).rnd = s.rnd := rfl
@[simp] theorem State.setI_report (w : Word) : (s.setI w).report = s.report := rfl
@[simp] theorem State.setI_pending (w : Word) : (s.setI w).pending = s.pending := rfl
@[simp] theorem State.setI_onward (w : Word) : (s.setI w).onward = s.onward := rfl
@[simp] theorem State.setI_draws (w : Word) : (s.setI w).draws = s.draws := rfl

/-! ## setPc -/

@[simp] theorem State.setPc_mem (w : Word) : (s.setPc w).mem = s.mem := rfl
@[simp] theorem State.setPc_v (w : Word) : (s.setPc w).v = s.v := rfl
@[simp] theorem State.setPc_i (w : Word) : (s.setPc w).i = s.i := rfl
@[simp] theorem State.setPc_pc (w : Word) : (s.setPc w).pc = w := rfl
@[simp] theorem State.setPc_stack (w : Word) : (s.setPc w).stack = s.stack := rfl
@[simp] theorem State.setPc_sp (w : Word) : (s.setPc w).sp = s.sp := rfl
@[simp] theorem State.setPc_dt (w : Word) : (s.setPc w).dt = s.dt := rfl
@[simp] theorem State.setPc_st (w : Word) : (s.setPc w).st = s.st := rfl
@[simp] theorem State.setPc_halted (w : Word) : (s.setPc w).halted = s.halted := rfl
@[simp] theorem State.setPc_err (w : Word) : (s.setPc w).err = s.err := rfl
@[simp] theorem State.setPc_fb (w : Word) : (s.setPc w).fb = s.fb := rfl
@[simp] theorem State.setPc_keys (w : Word) : (s.setPc w).keys = s.keys := rfl
@[simp] theorem State.setPc_rnd (w : Word) : (s.setPc w).rnd = s.rnd := rfl
@[simp] theorem State.setPc_report (w : Word) : (s.setPc w).report = s.report := rfl
@[simp] theorem State.setPc_pending (w : Word) : (s.setPc w).pending = s.pending := rfl
@[simp] theorem State.setPc_onward (w : Word) : (s.setPc w).onward = s.onward := rfl
@[simp] theorem State.setPc_draws (w : Word) : (s.setPc w).draws = s.draws := rfl

/-! ## advance -/

@[simp] theorem State.advance_mem : s.advance.mem = s.mem := rfl
@[simp] theorem State.advance_v : s.advance.v = s.v := rfl
@[simp] theorem State.advance_i : s.advance.i = s.i := rfl
@[simp] theorem State.advance_pc : s.advance.pc = s.pc + 2 := rfl
@[simp] theorem State.advance_stack : s.advance.stack = s.stack := rfl
@[simp] theorem State.advance_sp : s.advance.sp = s.sp := rfl
@[simp] theorem State.advance_dt : s.advance.dt = s.dt := rfl
@[simp] theorem State.advance_st : s.advance.st = s.st := rfl
@[simp] theorem State.advance_halted : s.advance.halted = s.halted := rfl
@[simp] theorem State.advance_err : s.advance.err = s.err := rfl
@[simp] theorem State.advance_fb : s.advance.fb = s.fb := rfl
@[simp] theorem State.advance_keys : s.advance.keys = s.keys := rfl
@[simp] theorem State.advance_rnd : s.advance.rnd = s.rnd := rfl
@[simp] theorem State.advance_report : s.advance.report = s.report := rfl
@[simp] theorem State.advance_pending : s.advance.pending = s.pending := rfl
@[simp] theorem State.advance_onward : s.advance.onward = s.onward := rfl
@[simp] theorem State.advance_draws : s.advance.draws = s.draws := rfl

/-! ## raise -/

@[simp] theorem State.raise_mem (e : Report) : (s.raise e).mem = s.mem := rfl
@[simp] theorem State.raise_v (e : Report) : (s.raise e).v = s.v := rfl
@[simp] theorem State.raise_i (e : Report) : (s.raise e).i = s.i := rfl
@[simp] theorem State.raise_pc (e : Report) : (s.raise e).pc = s.pc := rfl
@[simp] theorem State.raise_stack (e : Report) : (s.raise e).stack = s.stack := rfl
@[simp] theorem State.raise_sp (e : Report) : (s.raise e).sp = s.sp := rfl
@[simp] theorem State.raise_dt (e : Report) : (s.raise e).dt = s.dt := rfl
@[simp] theorem State.raise_st (e : Report) : (s.raise e).st = s.st := rfl
@[simp] theorem State.raise_halted (e : Report) : (s.raise e).halted = true := rfl
@[simp] theorem State.raise_err (e : Report) : (s.raise e).err = e.code := rfl
@[simp] theorem State.raise_fb (e : Report) : (s.raise e).fb = s.fb := rfl
@[simp] theorem State.raise_keys (e : Report) : (s.raise e).keys = s.keys := rfl
@[simp] theorem State.raise_rnd (e : Report) : (s.raise e).rnd = s.rnd := rfl
@[simp] theorem State.raise_report (e : Report) : (s.raise e).report = some e := rfl
@[simp] theorem State.raise_pending (e : Report) : (s.raise e).pending = s.pending := rfl
@[simp] theorem State.raise_onward (e : Report) : (s.raise e).onward = s.onward := rfl
@[simp] theorem State.raise_draws (e : Report) : (s.raise e).draws = s.draws := rfl

/-! ## sample -/

@[simp] theorem State.sample_mem (k : BitVec 16) (b : Byte) : (s.sample k b).mem = s.mem := rfl
@[simp] theorem State.sample_v (k : BitVec 16) (b : Byte) : (s.sample k b).v = s.v := rfl
@[simp] theorem State.sample_i (k : BitVec 16) (b : Byte) : (s.sample k b).i = s.i := rfl
@[simp] theorem State.sample_pc (k : BitVec 16) (b : Byte) : (s.sample k b).pc = s.pc := rfl
@[simp] theorem State.sample_stack (k : BitVec 16) (b : Byte) : (s.sample k b).stack = s.stack := rfl
@[simp] theorem State.sample_sp (k : BitVec 16) (b : Byte) : (s.sample k b).sp = s.sp := rfl
@[simp] theorem State.sample_dt (k : BitVec 16) (b : Byte) : (s.sample k b).dt = s.dt := rfl
@[simp] theorem State.sample_st (k : BitVec 16) (b : Byte) : (s.sample k b).st = s.st := rfl
@[simp] theorem State.sample_halted (k : BitVec 16) (b : Byte) : (s.sample k b).halted = s.halted := rfl
@[simp] theorem State.sample_err (k : BitVec 16) (b : Byte) : (s.sample k b).err = s.err := rfl
@[simp] theorem State.sample_fb (k : BitVec 16) (b : Byte) : (s.sample k b).fb = s.fb := rfl
@[simp] theorem State.sample_keys (k : BitVec 16) (b : Byte) : (s.sample k b).keys = k := rfl
@[simp] theorem State.sample_rnd (k : BitVec 16) (b : Byte) : (s.sample k b).rnd = b := rfl
@[simp] theorem State.sample_report (k : BitVec 16) (b : Byte) : (s.sample k b).report = s.report := rfl
@[simp] theorem State.sample_pending (k : BitVec 16) (b : Byte) : (s.sample k b).pending = s.pending := rfl
@[simp] theorem State.sample_onward (k : BitVec 16) (b : Byte) : (s.sample k b).onward = s.onward := rfl
@[simp] theorem State.sample_draws (k : BitVec 16) (b : Byte) : (s.sample k b).draws = s.draws := rfl

/-! ## tick -/

@[simp] theorem State.tick_mem : s.tick.mem = s.mem := rfl
@[simp] theorem State.tick_v : s.tick.v = s.v := rfl
@[simp] theorem State.tick_i : s.tick.i = s.i := rfl
@[simp] theorem State.tick_pc : s.tick.pc = s.pc := rfl
@[simp] theorem State.tick_stack : s.tick.stack = s.stack := rfl
@[simp] theorem State.tick_sp : s.tick.sp = s.sp := rfl
@[simp] theorem State.tick_dt : s.tick.dt = tickTimer s.dt := rfl
@[simp] theorem State.tick_st : s.tick.st = tickTimer s.st := rfl
@[simp] theorem State.tick_halted : s.tick.halted = s.halted := rfl
@[simp] theorem State.tick_err : s.tick.err = s.err := rfl
@[simp] theorem State.tick_fb : s.tick.fb = s.fb := rfl
@[simp] theorem State.tick_keys : s.tick.keys = s.keys := rfl
@[simp] theorem State.tick_rnd : s.tick.rnd = s.rnd := rfl
@[simp] theorem State.tick_report : s.tick.report = s.report := rfl
@[simp] theorem State.tick_pending : s.tick.pending = s.pending := rfl
@[simp] theorem State.tick_onward : s.tick.onward = s.onward := rfl
@[simp] theorem State.tick_draws : s.tick.draws = s.draws := rfl

/-! ## stop -/

@[simp] theorem State.stop_mem : s.stop.mem = s.mem := rfl
@[simp] theorem State.stop_v : s.stop.v = s.v := rfl
@[simp] theorem State.stop_i : s.stop.i = s.i := rfl
@[simp] theorem State.stop_pc : s.stop.pc = s.pc := rfl
@[simp] theorem State.stop_stack : s.stop.stack = s.stack := rfl
@[simp] theorem State.stop_sp : s.stop.sp = s.sp := rfl
@[simp] theorem State.stop_dt : s.stop.dt = s.dt := rfl
@[simp] theorem State.stop_st : s.stop.st = s.st := rfl
@[simp] theorem State.stop_halted : s.stop.halted = true := rfl
@[simp] theorem State.stop_err : s.stop.err = s.err := rfl
@[simp] theorem State.stop_fb : s.stop.fb = s.fb := rfl
@[simp] theorem State.stop_keys : s.stop.keys = s.keys := rfl
@[simp] theorem State.stop_rnd : s.stop.rnd = s.rnd := rfl
@[simp] theorem State.stop_report : s.stop.report = s.report := rfl
@[simp] theorem State.stop_pending : s.stop.pending = s.pending := rfl
@[simp] theorem State.stop_onward : s.stop.onward = s.onward := rfl
@[simp] theorem State.stop_draws : s.stop.draws = s.draws := rfl

/-! ## setFlag -/

@[simp] theorem State.setFlag_mem (c : Bool) : (s.setFlag c).mem = s.mem := rfl
@[simp] theorem State.setFlag_i (c : Bool) : (s.setFlag c).i = s.i := rfl
@[simp] theorem State.setFlag_pc (c : Bool) : (s.setFlag c).pc = s.pc := rfl
@[simp] theorem State.setFlag_stack (c : Bool) : (s.setFlag c).stack = s.stack := rfl
@[simp] theorem State.setFlag_sp (c : Bool) : (s.setFlag c).sp = s.sp := rfl
@[simp] theorem State.setFlag_dt (c : Bool) : (s.setFlag c).dt = s.dt := rfl
@[simp] theorem State.setFlag_st (c : Bool) : (s.setFlag c).st = s.st := rfl
@[simp] theorem State.setFlag_halted (c : Bool) : (s.setFlag c).halted = s.halted := rfl
@[simp] theorem State.setFlag_err (c : Bool) : (s.setFlag c).err = s.err := rfl
@[simp] theorem State.setFlag_fb (c : Bool) : (s.setFlag c).fb = s.fb := rfl
@[simp] theorem State.setFlag_keys (c : Bool) : (s.setFlag c).keys = s.keys := rfl
@[simp] theorem State.setFlag_rnd (c : Bool) : (s.setFlag c).rnd = s.rnd := rfl
@[simp] theorem State.setFlag_report (c : Bool) : (s.setFlag c).report = s.report := rfl
@[simp] theorem State.setFlag_pending (c : Bool) : (s.setFlag c).pending = s.pending := rfl
@[simp] theorem State.setFlag_onward (c : Bool) : (s.setFlag c).onward = s.onward := rfl
@[simp] theorem State.setFlag_draws (c : Bool) : (s.setFlag c).draws = s.draws := rfl

/-! ## setResultAndFlag -/

@[simp] theorem State.setResultAndFlag_mem (x : Reg) (b : Byte) (c : Bool) : (s.setResultAndFlag x b c).mem = s.mem := rfl
@[simp] theorem State.setResultAndFlag_i (x : Reg) (b : Byte) (c : Bool) : (s.setResultAndFlag x b c).i = s.i := rfl
@[simp] theorem State.setResultAndFlag_pc (x : Reg) (b : Byte) (c : Bool) : (s.setResultAndFlag x b c).pc = s.pc := rfl
@[simp] theorem State.setResultAndFlag_stack (x : Reg) (b : Byte) (c : Bool) : (s.setResultAndFlag x b c).stack = s.stack := rfl
@[simp] theorem State.setResultAndFlag_sp (x : Reg) (b : Byte) (c : Bool) : (s.setResultAndFlag x b c).sp = s.sp := rfl
@[simp] theorem State.setResultAndFlag_dt (x : Reg) (b : Byte) (c : Bool) : (s.setResultAndFlag x b c).dt = s.dt := rfl
@[simp] theorem State.setResultAndFlag_st (x : Reg) (b : Byte) (c : Bool) : (s.setResultAndFlag x b c).st = s.st := rfl
@[simp] theorem State.setResultAndFlag_halted (x : Reg) (b : Byte) (c : Bool) : (s.setResultAndFlag x b c).halted = s.halted := rfl
@[simp] theorem State.setResultAndFlag_err (x : Reg) (b : Byte) (c : Bool) : (s.setResultAndFlag x b c).err = s.err := rfl
@[simp] theorem State.setResultAndFlag_fb (x : Reg) (b : Byte) (c : Bool) : (s.setResultAndFlag x b c).fb = s.fb := rfl
@[simp] theorem State.setResultAndFlag_keys (x : Reg) (b : Byte) (c : Bool) : (s.setResultAndFlag x b c).keys = s.keys := rfl
@[simp] theorem State.setResultAndFlag_rnd (x : Reg) (b : Byte) (c : Bool) : (s.setResultAndFlag x b c).rnd = s.rnd := rfl
@[simp] theorem State.setResultAndFlag_report (x : Reg) (b : Byte) (c : Bool) : (s.setResultAndFlag x b c).report = s.report := rfl
@[simp] theorem State.setResultAndFlag_pending (x : Reg) (b : Byte) (c : Bool) : (s.setResultAndFlag x b c).pending = s.pending := rfl
@[simp] theorem State.setResultAndFlag_onward (x : Reg) (b : Byte) (c : Bool) : (s.setResultAndFlag x b c).onward = s.onward := rfl
@[simp] theorem State.setResultAndFlag_draws (x : Reg) (b : Byte) (c : Bool) : (s.setResultAndFlag x b c).draws = s.draws := rfl

/-! ## skipIf -/

@[simp] theorem State.skipIf_pc (c : Bool) : (s.skipIf c).pc = if c then s.pc + 2 else s.pc := by cases c <;> rfl
@[simp] theorem State.skipIf_mem (c : Bool) : (s.skipIf c).mem = s.mem := by cases c <;> rfl
@[simp] theorem State.skipIf_v (c : Bool) : (s.skipIf c).v = s.v := by cases c <;> rfl
@[simp] theorem State.skipIf_i (c : Bool) : (s.skipIf c).i = s.i := by cases c <;> rfl
@[simp] theorem State.skipIf_stack (c : Bool) : (s.skipIf c).stack = s.stack := by cases c <;> rfl
@[simp] theorem State.skipIf_sp (c : Bool) : (s.skipIf c).sp = s.sp := by cases c <;> rfl
@[simp] theorem State.skipIf_dt (c : Bool) : (s.skipIf c).dt = s.dt := by cases c <;> rfl
@[simp] theorem State.skipIf_st (c : Bool) : (s.skipIf c).st = s.st := by cases c <;> rfl
@[simp] theorem State.skipIf_halted (c : Bool) : (s.skipIf c).halted = s.halted := by cases c <;> rfl
@[simp] theorem State.skipIf_err (c : Bool) : (s.skipIf c).err = s.err := by cases c <;> rfl
@[simp] theorem State.skipIf_fb (c : Bool) : (s.skipIf c).fb = s.fb := by cases c <;> rfl
@[simp] theorem State.skipIf_keys (c : Bool) : (s.skipIf c).keys = s.keys := by cases c <;> rfl
@[simp] theorem State.skipIf_rnd (c : Bool) : (s.skipIf c).rnd = s.rnd := by cases c <;> rfl
@[simp] theorem State.skipIf_report (c : Bool) : (s.skipIf c).report = s.report := by cases c <;> rfl
@[simp] theorem State.skipIf_pending (c : Bool) : (s.skipIf c).pending = s.pending := by cases c <;> rfl
@[simp] theorem State.skipIf_onward (c : Bool) : (s.skipIf c).onward = s.onward := by cases c <;> rfl
@[simp] theorem State.skipIf_draws (c : Bool) : (s.skipIf c).draws = s.draws := by cases c <;> rfl

end Sys2Proof.Machine
end

