-- ==== Sys2Proof/Laws/Registers.lean ====
section
/-! SUPPORT. What register reads give after register writes (spec/10_state.md R22, R23), and the flag values. -/

namespace Sys2Proof.Machine

variable (s : State)

/-- `set(r, v); get(r') ` (R22). -/
@[simp] theorem State.getV_setV (r r' : Reg) (b : Byte) :
    (s.setV r b).getV r' = if r' = r then b else s.getV r' := by
  have h : (r.toNat = r'.toNat) = (r' = r) := propext (by rw [BitVec.toNat_inj, eq_comm])
  simp only [State.getV, State.setV, Vector.getElem_set, h]

/-! Reading a register does not see a write of anything else. -/

@[simp] theorem State.getV_setI (r : Reg) (w : Word) : (s.setI w).getV r = s.getV r := rfl
@[simp] theorem State.getV_setPc (r : Reg) (w : Word) : (s.setPc w).getV r = s.getV r := rfl
@[simp] theorem State.getV_advance (r : Reg) : s.advance.getV r = s.getV r := rfl
@[simp] theorem State.getV_raise (r : Reg) (e : Report) : (s.raise e).getV r = s.getV r := rfl
@[simp] theorem State.getV_sample (r : Reg) (k : BitVec 16) (b : Byte) : (s.sample k b).getV r = s.getV r := rfl
@[simp] theorem State.getV_skipIf (r : Reg) (c : Bool) : (s.skipIf c).getV r = s.getV r := by cases c <;> rfl

/-- The flag write is the last one, so it survives in VF; a result register other than VF keeps its result (R23, R137). -/
@[simp] theorem State.getV_setResultAndFlag (x r : Reg) (b : Byte) (c : Bool) :
    (s.setResultAndFlag x b c).getV r = if r = vf then flagByte c else if r = x then b else s.getV r := by
  simp [State.setResultAndFlag, State.setFlag]

@[simp] theorem State.getV_setFlag (r : Reg) (c : Bool) :
    (s.setFlag c).getV r = if r = vf then flagByte c else s.getV r := by
  simp [State.setFlag]

/-- Two register files that read the same are the same. -/
theorem State.v_ext {s t : State} (h : ∀ r, t.getV r = s.getV r) : t.v = s.v := by
  apply Vector.ext
  intro k hk
  have := h (BitVec.ofNat 4 k)
  simpa [State.getV, Nat.mod_eq_of_lt hk] using this

/-! ## Blocks of registers (R149, R150) -/

/-- What loading registers k, k + 1, ... does: register k + j gets byte j, every other register is as it was. -/
theorem State.getV_setVs (k : Nat) (bs : List Byte) (h : k + bs.length ≤ 16) (r : Reg) :
    (s.setVs k bs).getV r =
      if hr : k ≤ r.toNat ∧ r.toNat < k + bs.length then bs[r.toNat - k]'(by omega) else s.getV r := by
  induction bs generalizing s k with
  | nil =>
    rw [dif_neg (by simp)]
    rfl
  | cons b bs ih =>
    simp only [List.length_cons] at h ⊢
    show ((s.setV (BitVec.ofNat 4 k) b).setVs (k + 1) bs).getV r = _
    rw [ih _ (k + 1) (by omega), State.getV_setV]
    have hk : (BitVec.ofNat 4 k).toNat = k := by simp; omega
    by_cases h1 : k + 1 ≤ r.toNat ∧ r.toNat < k + 1 + bs.length
    · rw [dif_pos h1, dif_pos (by omega)]
      have : r.toNat - k = (r.toNat - (k + 1)) + 1 := by omega
      simp [this]
    · rw [dif_neg h1]
      by_cases h2 : r = BitVec.ofNat 4 k
      · have h3 : r.toNat = k := by rw [h2, hk]
        rw [if_pos h2, dif_pos (by omega)]
        simp [h3]
      · have h3 : r.toNat ≠ k := by
          intro h3
          exact h2 (by rw [← BitVec.toNat_inj, hk, h3])
        rw [if_neg h2, dif_neg (by omega)]

/-- Loading registers touches nothing but registers. -/
theorem State.setVs_eq (k : Nat) (bs : List Byte) : s.setVs k bs = { s with v := (s.setVs k bs).v } := by
  induction bs generalizing s k with
  | nil => rfl
  | cons b bs ih => exact ih (s.setV (BitVec.ofNat 4 k) b) (k + 1)

@[simp] theorem State.setVs_mem (k : Nat) (bs : List Byte) : (s.setVs k bs).mem = s.mem := by rw [State.setVs_eq]
@[simp] theorem State.setVs_i (k : Nat) (bs : List Byte) : (s.setVs k bs).i = s.i := by rw [State.setVs_eq]
@[simp] theorem State.setVs_pc (k : Nat) (bs : List Byte) : (s.setVs k bs).pc = s.pc := by rw [State.setVs_eq]
@[simp] theorem State.setVs_stack (k : Nat) (bs : List Byte) : (s.setVs k bs).stack = s.stack := by rw [State.setVs_eq]
@[simp] theorem State.setVs_sp (k : Nat) (bs : List Byte) : (s.setVs k bs).sp = s.sp := by rw [State.setVs_eq]
@[simp] theorem State.setVs_dt (k : Nat) (bs : List Byte) : (s.setVs k bs).dt = s.dt := by rw [State.setVs_eq]
@[simp] theorem State.setVs_st (k : Nat) (bs : List Byte) : (s.setVs k bs).st = s.st := by rw [State.setVs_eq]
@[simp] theorem State.setVs_halted (k : Nat) (bs : List Byte) : (s.setVs k bs).halted = s.halted := by rw [State.setVs_eq]
@[simp] theorem State.setVs_err (k : Nat) (bs : List Byte) : (s.setVs k bs).err = s.err := by rw [State.setVs_eq]
@[simp] theorem State.setVs_fb (k : Nat) (bs : List Byte) : (s.setVs k bs).fb = s.fb := by rw [State.setVs_eq]
@[simp] theorem State.setVs_keys (k : Nat) (bs : List Byte) : (s.setVs k bs).keys = s.keys := by rw [State.setVs_eq]
@[simp] theorem State.setVs_rnd (k : Nat) (bs : List Byte) : (s.setVs k bs).rnd = s.rnd := by rw [State.setVs_eq]
@[simp] theorem State.setVs_report (k : Nat) (bs : List Byte) : (s.setVs k bs).report = s.report := by rw [State.setVs_eq]
@[simp] theorem State.setVs_pending (k : Nat) (bs : List Byte) : (s.setVs k bs).pending = s.pending := by rw [State.setVs_eq]
@[simp] theorem State.setVs_onward (k : Nat) (bs : List Byte) : (s.setVs k bs).onward = s.onward := by rw [State.setVs_eq]
@[simp] theorem State.setVs_draws (k : Nat) (bs : List Byte) : (s.setVs k bs).draws = s.draws := by rw [State.setVs_eq]

@[simp] theorem State.length_regsUpTo (x : Reg) : (s.regsUpTo x).length = x.toNat + 1 := by simp [State.regsUpTo]

theorem State.getElem_regsUpTo (x : Reg) (k : Nat) (h : k < (s.regsUpTo x).length) :
    (s.regsUpTo x)[k] = s.getV (BitVec.ofNat 4 k) := by
  simp [State.regsUpTo]

@[simp] theorem length_decimalDigits (b : Byte) : (decimalDigits b).length = 3 := rfl

/-! ## This hardware's parameters (spec/00_scope.md R5) -/

/-- Shifts take V[x], whatever y is (decision D14). -/
@[simp] theorem State.shiftOperand_eq (x y : Reg) : s.shiftOperand x y = s.getV x := rfl

/-- Block transfers leave I unchanged (decision D22). -/
@[simp] theorem State.indexAfterBlock_eq (x : Reg) : s.indexAfterBlock x = s.i := rfl

/-! ## Operand values as numbers -/

@[simp] theorem toNat_addressOf (nnn : BitVec 12) : (addressOf nnn).toNat = nnn.toNat := by
  have := nnn.isLt
  simp only [addressOf, BitVec.toNat_setWidth]
  omega

@[simp] theorem State.toNat_offsetV (r : Reg) : (s.offsetV r).toNat = (s.getV r).toNat := by
  have := (s.getV r).isLt
  simp only [State.offsetV, BitVec.toNat_setWidth]
  omega

@[simp] theorem State.toNat_lowNibble (r : Reg) : (s.lowNibble r).toNat = (s.getV r).toNat % 16 := by
  simp [State.lowNibble]

@[simp] theorem State.toNat_spriteColumn (r : Reg) : (s.spriteColumn r).toNat = (s.getV r).toNat % 64 := by
  simp [State.spriteColumn]

@[simp] theorem State.toNat_spriteRow (r : Reg) : (s.spriteRow r).toNat = (s.getV r).toNat % 32 := by
  simp [State.spriteRow]

/-- The glyph address of digit d is 5 * d (R147, R151). -/
@[simp] theorem toNat_glyphAddress (d : BitVec 4) : (glyphAddress d).toNat = 5 * d.toNat := by
  have := d.isLt
  simp [glyphAddress, Config.fontBase, Config.fontGlyphBytes]
  omega

/-- No key is found exactly where the key vector is zero (R183). -/
theorem lowestKey_eq_none (keys : BitVec 16) : lowestKey keys = none ↔ keys = 0 := by
  simp only [lowestKey, Option.map_eq_none_iff, List.find?_eq_none, List.mem_range]
  constructor
  · intro h
    apply BitVec.eq_of_getLsbD_eq
    intro k hk
    simpa using h k hk
  · rintro rfl k _
    simp

/-- The key found is down, and no lower one is (R183). -/
theorem lowestKey_eq_some {keys : BitVec 16} {k : BitVec 4} (h : lowestKey keys = some k) :
    keys.getLsbD k.toNat = true ∧ ∀ j < k.toNat, keys.getLsbD j = false := by
  simp only [lowestKey, Option.map_eq_some_iff] at h
  obtain ⟨n, hn, rfl⟩ := h
  rw [List.find?_range_eq_some] at hn
  obtain ⟨h1, h2, h3⟩ := hn
  have hlt : n < 16 := by simpa using h2
  have : (BitVec.ofNat 4 n).toNat = n := by simp; omega
  rw [this]
  exact ⟨h1, fun j hj => by simpa using h3 j hj⟩

end Sys2Proof.Machine
end

