-- ==== Sys2Proof/Laws/Ops.lean ====
section
/-! SUPPORT. One lemma per shared operation: everything it can answer. Later proofs cite these and do not unfold the
operation. -/

namespace Sys2Proof.Machine

variable {s t : State}

/-! ## The range check (R58) -/

/-- No offending address: the range is empty or lies in memory. -/
theorem firstOffending_eq_none (base n : Nat) : firstOffending base n = none ↔ n = 0 ∨ base + n ≤ 4096 := by
  unfold firstOffending Config.memSize
  split <;> simp_all

/-- An offending address: it is 0x1000 where the range starts in memory, and its start otherwise. -/
theorem firstOffending_eq_some (base n a : Nat) :
    firstOffending base n = some a ↔ n ≠ 0 ∧ 4096 < base + n ∧ a = if 0xFFF < base then base else 0x1000 := by
  unfold firstOffending Config.memSize
  split
  · simp only [reduceCtorEq, false_iff]
    omega
  · simp only [Option.some.injEq]
    split <;> omega

/-! ## Blocks of memory -/

/-- `readBlock` answers the bytes, where the range lies in memory, or `OutOfBoundsAccess`. -/
theorem State.readBlock_cases (s : State) (base n : Nat) :
    ((n = 0 ∨ base + n ≤ 4096) ∧ s.readBlock base n = .ok (s.mem.readBytes base n)) ∨
    (n ≠ 0 ∧ 4096 < base + n ∧
      s.readBlock base n = .error (.outOfBoundsAccess (if 0xFFF < base then base else 0x1000))) := by
  cases h : firstOffending base n with
  | none => exact .inl ⟨(firstOffending_eq_none _ _).mp h, by simp [State.readBlock, h]⟩
  | some a =>
    obtain ⟨h1, h2, h3⟩ := (firstOffending_eq_some _ _ _).mp h
    exact .inr ⟨h1, h2, by simp [State.readBlock, h, h3]⟩

/-- `writeBlock` answers the state with the bytes stored, where the range lies in memory, or `OutOfBoundsAccess`. -/
theorem State.writeBlock_cases (s : State) (base : Nat) (bs : List Byte) :
    ((bs = [] ∨ base + bs.length ≤ 4096) ∧
      s.writeBlock base bs = .ok { s with mem := s.mem.writeBytes base bs }) ∨
    (bs ≠ [] ∧ 4096 < base + bs.length ∧
      s.writeBlock base bs = .error (.outOfBoundsAccess (if 0xFFF < base then base else 0x1000))) := by
  cases h : firstOffending base bs.length with
  | none =>
    refine .inl ⟨?_, by simp [State.writeBlock, h]⟩
    simpa using (firstOffending_eq_none _ _).mp h
  | some a =>
    obtain ⟨h1, h2, h3⟩ := (firstOffending_eq_some _ _ _).mp h
    exact .inr ⟨by simpa using h1, h2, by simp [State.writeBlock, h, h3]⟩

/-! ## Call stack -/

/-- `push` answers the state with the value in slot sp and sp one more, or `StackOverflow` with 16 valid entries. -/
theorem State.push_cases (s : State) (w : Word) :
    (∃ h : s.sp.val < 16,
      s.push w = .ok { s with stack := s.stack.set s.sp.val w h, sp := ⟨s.sp.val + 1, by omega⟩ }) ∨
    (s.sp.val = 16 ∧ s.push w = .error .stackOverflow) := by
  by_cases h : s.sp.val < 16
  · exact .inl ⟨h, by simp [State.push, h]⟩
  · exact .inr ⟨by have := s.sp.isLt; omega, by simp [State.push, h]⟩

/-- `pop` answers the newest entry and the state with sp one less, or `StackUnderflow` with none. -/
theorem State.pop_cases (s : State) :
    (∃ k, ∃ h : k < 16, s.sp.val = k + 1 ∧ s.pop = .ok (s.stack[k]'h, { s with sp := ⟨k, by omega⟩ })) ∨
    (s.sp.val = 0 ∧ s.pop = .error .stackUnderflow) := by
  unfold State.pop
  split
  · rename_i h
    exact .inr ⟨by rw [h], rfl⟩
  · rename_i k hk h
    exact .inl ⟨k, by omega, by rw [h], rfl⟩

/-! ## Raising and going on -/

@[simp] theorem State.attempt_ok {α : Type} (s : State) (a : α) (f : α → State) : s.attempt (.ok a) f = f a := rfl

@[simp] theorem State.attempt_error {α : Type} (s : State) (e : Report) (f : α → State) :
    s.attempt (.error e) f = s.raise e := rfl

/-! ## A Step before its execute phase (R100 to R103) -/

/-- `fetch` answers the big-endian word at pc where pc is at most 0xFFE, or `OutOfBoundsAccess` (R101). -/
theorem State.fetch_cases (s : State) :
    (s.pc.toNat ≤ 0xFFE ∧
      s.fetch = .ok (wordOfBytes (s.mem.readByte s.pc.toNat) (s.mem.readByte (s.pc.toNat + 1)))) ∨
    (0xFFE < s.pc.toNat ∧
      s.fetch = .error (.outOfBoundsAccess (if 0xFFF < s.pc.toNat then s.pc.toNat else 0x1000))) := by
  cases h : firstOffending s.pc.toNat 2 with
  | none =>
    have := (firstOffending_eq_none _ _).mp h
    exact .inl ⟨by omega, by simp [State.fetch, h]⟩
  | some a =>
    obtain ⟨_, h2, h3⟩ := (firstOffending_eq_some _ _ _).mp h
    exact .inr ⟨by omega, by simp [State.fetch, h, h3]⟩

/-- Everything `fetchDecode` can answer (R100, R105). -/
theorem State.fetchDecode_cases (s : State) :
    (s.halted = true ∧ s.fetchDecode = .done s) ∨
    (s.halted = false ∧ ∃ e, s.fetch = .error e ∧ s.fetchDecode = .done (s.raise e)) ∨
    (s.halted = false ∧ ∃ w, s.fetch = .ok w ∧ decodeWord w = none ∧
      s.fetchDecode = .done (s.advance.raise (.decodeError w))) ∨
    (s.halted = false ∧ ∃ w i, s.fetch = .ok w ∧ decodeWord w = some i ∧ s.fetchDecode = .execute i s.advance) := by
  cases hh : s.halted with
  | true => simp [State.fetchDecode, hh]
  | false =>
    cases hf : s.fetch with
    | error e => simp [State.fetchDecode, hh, hf]
    | ok w => cases hd : decodeWord w <;> simp [State.fetchDecode, hh, hf, hd]

/-! ## Every operation that writes memory keeps the canonical form -/

/-- A block store that answers a state keeps the canonical form. -/
theorem State.wf_writeBlock {base : Nat} {bs : List Byte} (h : s.mem.wf) (hw : s.writeBlock base bs = .ok t) :
    t.mem.wf := by
  rcases s.writeBlock_cases base bs with ⟨hr, hok⟩ | ⟨_, _, herr⟩
  · rw [hok] at hw
    cases hw
    rcases hr with rfl | hr
    · exact h
    · exact Memory.wf_writeBytes h hr
  · rw [herr] at hw
    cases hw

/-- A Load keeps the canonical form, whether it fits or fails. -/
theorem State.wf_load (h : s.mem.wf) (bytes : List Byte) (start : Nat) : (s.load bytes start).mem.wf := by
  unfold State.load
  split
  · exact Memory.wf_writeBytes h ‹_›
  · exact h

/-! ## Placing a word for the next step -/

/-- The pc that a word is placed at can be fetched at. -/
theorem State.fetchablePc_le (s : State) : s.fetchablePc.toNat + 2 ≤ 4096 := by
  unfold State.fetchablePc
  split
  · assumption
  · decide

/-- Placing a word keeps the canonical form. -/
theorem State.wf_placeWord (h : s.mem.wf) (w : Word) : (s.placeWord w).mem.wf :=
  Memory.wf_writeBytes h s.fetchablePc_le

/-- A word placed for the next step is the word it fetches. -/
theorem State.fetch_placeWord (h : s.mem.wf) (w : Word) : (s.placeWord w).fetch = .ok w := by
  have hle := s.fetchablePc_le
  rcases (s.placeWord w).fetch_cases with ⟨_, hf⟩ | ⟨hpc, _⟩
  · rw [hf]
    show Except.ok (wordOfBytes ((s.mem.writeBytes s.fetchablePc.toNat [byte0 w, byte1 w]).readByte s.fetchablePc.toNat)
      ((s.mem.writeBytes s.fetchablePc.toNat [byte0 w, byte1 w]).readByte (s.fetchablePc.toNat + 1))) = _
    rw [Memory.readByte_writeBytes _ h.1, Memory.readByte_writeBytes _ h.1, dif_pos (by simp), dif_pos (by simp)]
    simp
  · have : (s.placeWord w).pc = s.fetchablePc := rfl
    rw [this] at hpc
    omega

/-- A state with a word placed is ready to fetch, and its next event is a Step. -/
theorem State.placeWord_ready (s : State) (w : Word) :
    (s.placeWord w).halted = false ∧ ∃ k r t, (s.placeWord w).takeEvent = (.step k r, t) := by
  refine ⟨rfl, ?_⟩
  have hp : (s.placeWord w).pending = s.nextIsStep.pending := rfl
  unfold State.takeEvent
  rw [hp]
  have ho : (s.placeWord w).onward = s.nextIsStep.onward := rfl
  unfold State.freeEvent
  rw [ho]
  unfold State.nextIsStep State.freeStep
  cases hs : s.pending with
  | nil => cases hn : s.onward <;> simp [hs, hn]
  | cons e rest => cases e <;> simp [hs]

end Sys2Proof.Machine
end

