-- ==== Sys2Proof/Laws/PerInstr.lean ====
section
/-! SUPPORT. Statements made per instruction, one lemma per constructor. Family `FixedBits`: the bits that the opcode
table fixes for an instruction's row stand in its encoding (spec/30_encoding.md R85). -/

namespace Sys2Proof.Laws

/-! ## Masking a word put together from nibbles -/

/-- A mask of nibbles acts nibble by nibble. -/
theorem and_append {n m : Nat} (a c : BitVec n) (b d : BitVec m) : (a ++ b) &&& (c ++ d) = (a &&& c) ++ (b &&& d) := by
  apply BitVec.eq_of_getLsbD_eq
  intro j _
  simp only [BitVec.getLsbD_and, BitVec.getLsbD_append]
  split <;> rfl

/-- A nibble under a full mask. -/
theorem and_nibble (a : BitVec 4) : a &&& 0xF#4 = a := BitVec.and_allOnes (x := a)

/-- A byte under a full mask. -/
theorem and_byte (a : BitVec 8) : a &&& 0xFF#8 = a := BitVec.and_allOnes (x := a)

/-- The shape NNN under the mask 0xF000. -/
theorem mask_nnn (op : BitVec 4) (nnn : BitVec 12) : (op ++ nnn : Word) &&& 0xF000 = op ++ 0x000#12 := by
  refine (and_append op 0xF#4 nnn 0x000#12).trans ?_
  rw [and_nibble op, BitVec.and_zero]

/-- The shape XNN under the mask 0xF000. -/
theorem mask_xnn (op x : BitVec 4) (nn : BitVec 8) : (op ++ x ++ nn : Word) &&& 0xF000 = op ++ 0x0#4 ++ 0x00#8 := by
  refine (and_append (op ++ x) (0xF#4 ++ 0x0#4) nn 0x00#8).trans ?_
  rw [and_append, and_nibble op, BitVec.and_zero, BitVec.and_zero]

/-- The shape X under the mask 0xF0FF. -/
theorem mask_x (op x : BitVec 4) (nn : BitVec 8) : (op ++ x ++ nn : Word) &&& 0xF0FF = op ++ 0x0#4 ++ nn := by
  refine (and_append (op ++ x) (0xF#4 ++ 0x0#4) nn 0xFF#8).trans ?_
  rw [and_append, and_nibble op, BitVec.and_zero, and_byte nn]

/-- The shape XYN under the mask 0xF000. -/
theorem mask_xyn (op x y n : BitVec 4) : (op ++ x ++ y ++ n : Word) &&& 0xF000 = op ++ 0x0#4 ++ 0x0#4 ++ 0x0#4 := by
  refine (and_append (op ++ x ++ y) (0xF#4 ++ 0x0#4 ++ 0x0#4) n 0x0#4).trans ?_
  rw [and_append, and_append, and_nibble op]
  simp only [BitVec.and_zero]

/-- The shape XY under the mask 0xF00F. -/
theorem mask_xy (op x y n : BitVec 4) : (op ++ x ++ y ++ n : Word) &&& 0xF00F = op ++ 0x0#4 ++ 0x0#4 ++ n := by
  refine (and_append (op ++ x ++ y) (0xF#4 ++ 0x0#4 ++ 0x0#4) n 0xF#4).trans ?_
  rw [and_append, and_append, and_nibble op, and_nibble n]
  simp only [BitVec.and_zero]

end Sys2Proof.Laws

namespace Sys2Proof.Laws.FixedBits

/-- The fixed bits of the instruction's row stand in its encoding. -/
def Statement (i : Instr) : Prop := encode i &&& i.row.mask = i.row.pattern

theorem cls : Statement .cls := rfl
theorem ret : Statement .ret := rfl
theorem jp (nnn : BitVec 12) : Statement (.jp nnn) := mask_nnn 0x1#4 nnn
theorem call (nnn : BitVec 12) : Statement (.call nnn) := mask_nnn 0x2#4 nnn
theorem seImm (x : Reg) (nn : Byte) : Statement (.seImm x nn) := mask_xnn 0x3#4 x nn
theorem sneImm (x : Reg) (nn : Byte) : Statement (.sneImm x nn) := mask_xnn 0x4#4 x nn
theorem seReg (x y : Reg) : Statement (.seReg x y) := mask_xy 0x5#4 x y 0x0#4
theorem ldImm (x : Reg) (nn : Byte) : Statement (.ldImm x nn) := mask_xnn 0x6#4 x nn
theorem addImm (x : Reg) (nn : Byte) : Statement (.addImm x nn) := mask_xnn 0x7#4 x nn
theorem ldReg (x y : Reg) : Statement (.ldReg x y) := mask_xy 0x8#4 x y 0x0#4
theorem orReg (x y : Reg) : Statement (.orReg x y) := mask_xy 0x8#4 x y 0x1#4
theorem andReg (x y : Reg) : Statement (.andReg x y) := mask_xy 0x8#4 x y 0x2#4
theorem xorReg (x y : Reg) : Statement (.xorReg x y) := mask_xy 0x8#4 x y 0x3#4
theorem addReg (x y : Reg) : Statement (.addReg x y) := mask_xy 0x8#4 x y 0x4#4
theorem subReg (x y : Reg) : Statement (.subReg x y) := mask_xy 0x8#4 x y 0x5#4
theorem shr (x y : Reg) : Statement (.shr x y) := mask_xy 0x8#4 x y 0x6#4
theorem subn (x y : Reg) : Statement (.subn x y) := mask_xy 0x8#4 x y 0x7#4
theorem shl (x y : Reg) : Statement (.shl x y) := mask_xy 0x8#4 x y 0xE#4
theorem sneReg (x y : Reg) : Statement (.sneReg x y) := mask_xy 0x9#4 x y 0x0#4
theorem ldI (nnn : BitVec 12) : Statement (.ldI nnn) := mask_nnn 0xA#4 nnn
theorem jpV0 (nnn : BitVec 12) : Statement (.jpV0 nnn) := mask_nnn 0xB#4 nnn
theorem rnd (x : Reg) (nn : Byte) : Statement (.rnd x nn) := mask_xnn 0xC#4 x nn
theorem drw (x y : Reg) (n : BitVec 4) : Statement (.drw x y n) := mask_xyn 0xD#4 x y n
theorem skp (x : Reg) : Statement (.skp x) := mask_x 0xE#4 x 0x9E#8
theorem sknp (x : Reg) : Statement (.sknp x) := mask_x 0xE#4 x 0xA1#8
theorem ldVxDt (x : Reg) : Statement (.ldVxDt x) := mask_x 0xF#4 x 0x07#8
theorem ldVxK (x : Reg) : Statement (.ldVxK x) := mask_x 0xF#4 x 0x0A#8
theorem ldDtVx (x : Reg) : Statement (.ldDtVx x) := mask_x 0xF#4 x 0x15#8
theorem ldStVx (x : Reg) : Statement (.ldStVx x) := mask_x 0xF#4 x 0x18#8
theorem addI (x : Reg) : Statement (.addI x) := mask_x 0xF#4 x 0x1E#8
theorem ldF (x : Reg) : Statement (.ldF x) := mask_x 0xF#4 x 0x29#8
theorem ldB (x : Reg) : Statement (.ldB x) := mask_x 0xF#4 x 0x33#8
theorem stRegs (x : Reg) : Statement (.stRegs x) := mask_x 0xF#4 x 0x55#8
theorem ldRegs (x : Reg) : Statement (.ldRegs x) := mask_x 0xF#4 x 0x65#8

end Sys2Proof.Laws.FixedBits
end

