-- ==== Sys2Proof/Laws/Step.lean ====
section
/-! SUPPORT. What a step can do, said once: the inversion of `step`, and the frames of the shared operations. -/

namespace Sys2Proof.Machine

variable {s t : State}

/-! ## Events -/

/-- `takeEvent` takes the next event, whichever it is. -/
theorem State.takeEvent_takes (s : State) : Takes s.takeEvent.1 s s.takeEvent.2 := by
  unfold State.takeEvent Takes
  cases s.pending with
  | cons e rest => exact .inl ⟨rest, rfl, rfl⟩
  | nil =>
    refine .inr ⟨rfl, rfl, ?_⟩
    unfold State.freeEvent
    cases s.onward with
    | steps => exact .inl ⟨rfl, rfl⟩
    | anything => exact .inr ⟨rfl, rfl⟩

/-- The next event is what `takeEvent` answers, and nothing else. -/
theorem Takes.takeEvent_eq {e : Event} (h : Takes e s t) : s.takeEvent = (e, t) := by
  obtain ⟨rest, hp, rfl⟩ | ⟨hp, rfl, ⟨ho, rfl⟩ | ⟨ho, rfl⟩⟩ := h <;>
    simp [State.takeEvent, State.freeEvent, State.freeStep, *]

/-- A step is the next event, to its end. -/
theorem Takes.step_eq {e : Event} (h : Takes e s t) :
    step s = match t.begin e with
      | .done u => .next u
      | .execute i u => exec i u :=
  congrArg (fun p : Event × State => match p.2.begin p.1 with
    | .done u => Host.Outcome.next u
    | .execute i u => exec i u) h.takeEvent_eq

/-- Taking an event changes the schedule, the count of free events and the report, and nothing of the hardware's. -/
theorem Takes.onlyChanges {e : Event} (h : Takes e s t) : OnlyChanges [.report, .pending, .draws] s t := by
  intro p hp
  obtain ⟨_, _, rfl⟩ | ⟨_, rfl, _⟩ := h <;> cases p <;> simp_all [Keeps, State.getV]

/-- `step` is the event's own effect, or the execute phase of the instruction it decoded. -/
theorem step_eq (s : State) :
    (∃ t, s.takeEvent.2.begin s.takeEvent.1 = .done t ∧ step s = .next t) ∨
    (∃ i t, s.takeEvent.2.begin s.takeEvent.1 = .execute i t ∧ step s = exec i t) := by
  cases h : s.takeEvent.2.begin s.takeEvent.1 with
  | done t => exact .inl ⟨t, rfl, by simp [step, h]⟩
  | execute i t => exact .inr ⟨i, t, rfl, by simp [step, h]⟩

/-- A Step fetches and decodes in the state with its inputs sampled. -/
theorem AboutToStep.step_eq (h : AboutToStep s t) :
    step s = match t.fetchDecode with
      | .done u => .next u
      | .execute i u => exec i u := by
  obtain ⟨k, r, u, hu, rfl⟩ := h
  exact hu.step_eq

/-- Sampling the inputs of a Step changes nothing of the hardware's. -/
theorem AboutToStep.sameMachine (h : AboutToStep s t) : SameMachine s t := by
  obtain ⟨k, r, u, hu, rfl⟩ := h
  intro p hp
  have hk := hu.onlyChanges p (by cases p <;> simp_all)
  cases p <;> simp_all [Keeps, State.getV]

/-! ## Frames -/

theorem OnlyChanges.refl (parts : List Part) (s : State) : OnlyChanges parts s s := by
  intro p _
  cases p <;> simp [Keeps]

theorem Keeps.trans {p : Part} {s t u : State} (h1 : Keeps p s t) (h2 : Keeps p t u) : Keeps p s u := by
  cases p <;> simp_all [Keeps]

theorem OnlyChanges.trans {parts : List Part} {s t u : State} (h1 : OnlyChanges parts s t)
    (h2 : OnlyChanges parts t u) : OnlyChanges parts s u :=
  fun p hp => (h1 p hp).trans (h2 p hp)

theorem OnlyChanges.mono {small large : List Part} {s t : State} (h : OnlyChanges small s t)
    (hsub : ∀ p ∈ small, p ∈ large) : OnlyChanges large s t :=
  fun p hp => h p fun hs => hp (hsub p hs)

/-! One frame per update. -/

theorem State.setV_onlyChanges (s : State) (r : Reg) (b : Byte) : OnlyChanges [.v] s (s.setV r b) := by
  intro p hp
  cases p <;> simp_all [Keeps]

theorem State.setResultAndFlag_onlyChanges (s : State) (x : Reg) (b : Byte) (c : Bool) :
    OnlyChanges [.v] s (s.setResultAndFlag x b c) := by
  intro p hp
  cases p <;> simp_all [Keeps]

theorem State.setPc_onlyChanges (s : State) (w : Word) : OnlyChanges [.pc] s (s.setPc w) := by
  intro p hp
  cases p <;> simp_all [Keeps]

theorem State.skipIf_onlyChanges (s : State) (c : Bool) : OnlyChanges [.pc] s (s.skipIf c) := by
  intro p hp
  cases p <;> simp_all [Keeps]

theorem State.setI_onlyChanges (s : State) (w : Word) : OnlyChanges [.i] s (s.setI w) := by
  intro p hp
  cases p <;> simp_all [Keeps]

/-- Raising an error does what R207 and R208 say. -/
theorem State.raise_haltsWith (s : State) (e : Report) : HaltsWith e s (s.raise e) := by
  refine ⟨rfl, rfl, rfl, ?_⟩
  intro p hp
  cases p <;> simp_all [Keeps]

/-! ## What an instruction can do -/

/-- `attempt` goes on or raises. -/
theorem State.attempt_cases {α : Type} (s : State) (r : Except Report α) (f : α → State) :
    (∃ a, r = .ok a ∧ s.attempt r f = f a) ∨ (∃ e, r = .error e ∧ s.attempt r f = s.raise e) := by
  cases r with
  | ok a => exact .inl ⟨a, rfl, rfl⟩
  | error e => exact .inr ⟨e, rfl, rfl⟩

end Sys2Proof.Machine
end

