-- ==== Sys2Proof/Tests/Slice0.lean ====
section
/-! SUPPORT. The model's own tests. Expected results come from spec/95_test_vectors.md (the id of the vector stands in each
name's comment) or from the rule cited; each runs at most one step. After them, a named witness for every hypothesis of
the statements in Certificates/Slice0/Obligations.lean. -/

namespace Sys2Proof.Tests

open Sys2Proof.Machine

/-! ## Helpers -/

/-- The reset state with some registers set. -/
def regs (l : List (Reg × Byte)) : State := l.foldl (fun s p => s.setV p.1 p.2) State.reset

/-- A state with some memory bytes set. -/
def bytes (a : Nat) (bs : List Byte) (s : State) : State := { s with mem := s.mem.writeBytes a bs }

/-- A state with some pixels (column, row) turned over. -/
def pixels (l : List (BitVec 6 × BitVec 5)) (s : State) : State :=
  { s with fb := l.foldl (fun fb p => fb.toggle p.1 p.2) s.fb }

/-- A state whose next event is a Step with the given inputs. -/
def inputs (k : BitVec 16) (r : Byte) (s : State) : State := { s with pending := [.step k r] }

/-- The state after one step; the state itself where the step does not answer a next state. -/
def after (s : State) : State :=
  match step s with
  | .next t => t
  | _ => s

/-- The state after one step that runs the given word. -/
def ran (w : Nat) (s : State) : State := after (s.withFetchWord 16 w)

/-- The columns of a row that are on. -/
def rowOn (s : State) (y : BitVec 5) : List Nat := (List.range 64).filter fun x => s.fb.pixel (BitVec.ofNat 6 x) y

/-- What a halt shows: halted, err, pc, report. -/
def halt (s : State) : Bool × ErrorCode × Word × Option Report := (s.halted, s.err, s.pc, s.report)

/-! ## Decoding: one word per row, its bits written out from the `encoding` column of the opcode table -/

theorem test_decode_cls : decodeWord 0b0000000011100000#16 = some .cls := by decide
theorem test_decode_ret : decodeWord 0b0000000011101110#16 = some .ret := by decide
theorem test_decode_jp : decodeWord 0b0001101010111100#16 = some (.jp 0xABC) := by decide
theorem test_decode_call : decodeWord 0b0010001000001000#16 = some (.call 0x208) := by decide
theorem test_decode_seImm : decodeWord 0b0011010110101010#16 = some (.seImm 5 0xAA) := by decide
theorem test_decode_sneImm : decodeWord 0b0100001100010001#16 = some (.sneImm 3 0x11) := by decide
theorem test_decode_seReg : decodeWord 0b0101000100100000#16 = some (.seReg 1 2) := by decide
theorem test_decode_ldImm : decodeWord 0b0110000011101010#16 = some (.ldImm 0 0xEA) := by decide
theorem test_decode_addImm : decodeWord 0b0111111100000001#16 = some (.addImm 0xF 1) := by decide
theorem test_decode_ldReg : decodeWord 0b1000000100100000#16 = some (.ldReg 1 2) := by decide
theorem test_decode_orReg : decodeWord 0b1000000100100001#16 = some (.orReg 1 2) := by decide
theorem test_decode_andReg : decodeWord 0b1000000100100010#16 = some (.andReg 1 2) := by decide
theorem test_decode_xorReg : decodeWord 0b1000000100100011#16 = some (.xorReg 1 2) := by decide
theorem test_decode_addReg : decodeWord 0b1000000100100100#16 = some (.addReg 1 2) := by decide
theorem test_decode_subReg : decodeWord 0b1000000100100101#16 = some (.subReg 1 2) := by decide
theorem test_decode_shr : decodeWord 0b1000000100100110#16 = some (.shr 1 2) := by decide
theorem test_decode_subn : decodeWord 0b1000000100100111#16 = some (.subn 1 2) := by decide
theorem test_decode_shl : decodeWord 0b1000000100101110#16 = some (.shl 1 2) := by decide
theorem test_decode_sneReg : decodeWord 0b1001000100100000#16 = some (.sneReg 1 2) := by decide
theorem test_decode_ldI : decodeWord 0b1010001100000000#16 = some (.ldI 0x300) := by decide
theorem test_decode_jpV0 : decodeWord 0b1011111111111111#16 = some (.jpV0 0xFFF) := by decide
theorem test_decode_rnd : decodeWord 0b1100000100001111#16 = some (.rnd 1 0x0F) := by decide
theorem test_decode_drw : decodeWord 0b1101000100100011#16 = some (.drw 1 2 3) := by decide
theorem test_decode_skp : decodeWord 0b1110011110011110#16 = some (.skp 7) := by decide
theorem test_decode_sknp : decodeWord 0b1110011110100001#16 = some (.sknp 7) := by decide
theorem test_decode_ldVxDt : decodeWord 0b1111001100000111#16 = some (.ldVxDt 3) := by decide
theorem test_decode_ldVxK : decodeWord 0b1111010000001010#16 = some (.ldVxK 4) := by decide
theorem test_decode_ldDtVx : decodeWord 0b1111001100010101#16 = some (.ldDtVx 3) := by decide
theorem test_decode_ldStVx : decodeWord 0b1111001100011000#16 = some (.ldStVx 3) := by decide
theorem test_decode_addI : decodeWord 0b1111001000011110#16 = some (.addI 2) := by decide
theorem test_decode_ldF : decodeWord 0b1111000000101001#16 = some (.ldF 0) := by decide
theorem test_decode_ldB : decodeWord 0b1111000000110011#16 = some (.ldB 0) := by decide
theorem test_decode_stRegs : decodeWord 0b1111111101010101#16 = some (.stRegs 0xF) := by decide
theorem test_decode_ldRegs : decodeWord 0b1111101001100101#16 = some (.ldRegs 0xA) := by decide

/-- Vector S9: the six fields of the bytes 0xD1, 0x23. -/
theorem test_fields : (opField 0xD123, xField 0xD123, yField 0xD123, nField 0xD123, nnField 0xD123, nnnField 0xD123) =
    (0xD, 1, 2, 3, 0x23, 0x123) := by decide

/-- Section 2.6: words that are no instruction. -/
theorem test_illegal_words : ([0x0000, 0x00E1, 0x00EF, 0x01E0, 0x0230, 0x5001, 0x800F, 0xE09F, 0xF000, 0xFFFF, 0x5121,
    0x9121, 0x8128] : List Word).map decodeWord = List.replicate 13 none := by decide

/-- R55, R80: bytes in memory order, with the rest given back; one byte is no instruction. -/
theorem test_decodeBytes : decodeBytes [0x12, 0x08, 0x99] = .ok (.jp 0x208, [0x99]) := by rfl

theorem test_decodeBytes_truncated : decodeBytes [0x12] = .error .truncated := by rfl

theorem test_decodeTableWord : decodeTableWord 16 0xF155 = some (.stRegs 1) := by decide

/-- The encoder gives the words above. -/
theorem test_encode : ([.call 0x208, .sneImm 3 0x11, .shl 1 2, .drw 1 2 3, .ldB 0] : List Instr).map encode =
    [0x2208, 0x4311, 0x812E, 0xD123, 0xF033] := by decide

/-! ## Well-formedness: there is nothing to refuse (R22, R83), so the smoke test is that nothing is refused -/

theorem test_wellFormed : ∀ i : Instr, i.wellFormed = true := by
  intro i
  cases i <;> rfl

/-! ## Control transfer -/

/-- S6v2. -/
theorem test_ret : let t := ran 0x00EE { State.reset with sp := 1, stack := State.reset.stack.set 0 0x202, pc := 0x300 }
    (t.sp, t.pc) = (0, 0x202) := by decide
/-- S7v. -/
theorem test_ret_empty : (halt (ran 0x00EE State.reset), (ran 0x00EE State.reset).sp) =
    ((true, .stackUnderflow, 0x202, some .stackUnderflow), 0) := by decide
/-- T1. -/
theorem test_jp : (ran 0x1ABC State.reset).pc = 0xABC := by decide
/-- S6v1. -/
theorem test_call : let t := ran 0x2300 State.reset
    (t.stack[0], t.sp, t.pc) = (0x202, 1, 0x300) := by decide
/-- T3. -/
theorem test_call_full : let t := ran 0x2300 { State.reset with sp := 16, stack := Vector.replicate 16 0x222 }
    (halt t, t.sp, t.stack) = ((true, .stackOverflow, 0x202, some .stackOverflow), 16, Vector.replicate 16 0x222) := by
  decide
/-- S8v1 and S8v2. -/
theorem test_seImm : ((ran 0x3342 (regs [(3, 0x42)])).pc, (ran 0x3343 (regs [(3, 0x42)])).pc) = (0x204, 0x202) := by decide
/-- T6 and T7. -/
theorem test_sneImm : ((ran 0x4342 (regs [(3, 0x42)])).pc, (ran 0x4343 (regs [(3, 0x42)])).pc) = (0x202, 0x204) := by decide
/-- T8 and T9. -/
theorem test_seReg : ((ran 0x5120 (regs [(1, 7), (2, 7)])).pc, (ran 0x5120 (regs [(1, 7), (2, 8)])).pc) = (0x204, 0x202) := by
  decide
/-- T11 and T12. -/
theorem test_sneReg : ((ran 0x9120 (regs [(1, 7), (2, 8)])).pc, (ran 0x9120 (regs [(1, 7), (2, 7)])).pc) = (0x204, 0x202) := by
  decide
/-- X6. -/
theorem test_jpV0 : (ran 0xB300 (regs [(0, 0x10), (3, 0x20)])).pc = 0x310 := by decide
/-- T15: the largest reachable pc, and no fault yet. -/
theorem test_jpV0_top : let t := ran 0xBFFF (regs [(0, 0xFF)])
    (t.pc, t.halted) = (0x10FE, false) := by decide

/-! ## Register load and ALU: V1 or the named register, then VF -/

/-- A1. -/
theorem test_ldImm : (ran 0x60EA State.reset).getV 0 = 0xEA := by decide
/-- S2v. -/
theorem test_addImm : let t := ran 0x700A (regs [(0, 250)])
    (t.getV 0, t.getV 0xF) = (4, 0) := by decide
/-- A4. -/
theorem test_ldReg : (ran 0x8120 (regs [(2, 0x37)])).getV 1 = 0x37 := by decide
/-- A5. -/
theorem test_orReg : let t := ran 0x8121 (regs [(1, 0x0F), (2, 0xF0), (0xF, 1)])
    (t.getV 1, t.getV 0xF) = (0xFF, 1) := by decide
/-- A6. -/
theorem test_andReg : let t := ran 0x8122 (regs [(1, 0x3C), (2, 0x0F), (0xF, 1)])
    (t.getV 1, t.getV 0xF) = (0x0C, 1) := by decide
/-- A7. -/
theorem test_xorReg : let t := ran 0x8123 (regs [(1, 0xFF), (2, 0x0F), (0xF, 1)])
    (t.getV 1, t.getV 0xF) = (0xF0, 1) := by decide
/-- S3v1. -/
theorem test_addReg : let t := ran 0x8124 (regs [(1, 200), (2, 100)])
    (t.getV 1, t.getV 0xF) = (44, 1) := by decide
/-- A11: x = F, the sum is lost. -/
theorem test_addReg_vf : (ran 0x8F14 (regs [(0xF, 10), (1, 20)])).getV 0xF = 0 := by decide
/-- A14. -/
theorem test_subReg : let t := ran 0x8125 (regs [(1, 5), (2, 10), (0xF, 1)])
    (t.getV 1, t.getV 0xF) = (251, 0) := by decide
/-- A18: y = F, the old VF is subtracted. -/
theorem test_subReg_vf : let t := ran 0x81F5 (regs [(1, 5), (0xF, 1)])
    (t.getV 1, t.getV 0xF) = (4, 1) := by decide
/-- A24: y is ignored. -/
theorem test_shr : let t := ran 0x8126 (regs [(1, 5), (2, 0xFE)])
    (t.getV 1, t.getV 0xF, t.getV 2) = (2, 1, 0xFE) := by decide
/-- A26: the shift is logical. -/
theorem test_shr_logical : let t := ran 0x8106 (regs [(1, 0xFF)])
    (t.getV 1, t.getV 0xF) = (0x7F, 1) := by decide
/-- A20. -/
theorem test_subn : let t := ran 0x8127 (regs [(1, 10), (2, 5), (0xF, 1)])
    (t.getV 1, t.getV 0xF) = (251, 0) := by decide
/-- A21: equal operands, no borrow. -/
theorem test_subn_equal : let t := ran 0x8127 (regs [(1, 7), (2, 7)])
    (t.getV 1, t.getV 0xF) = (0, 1) := by decide
/-- A30: y is ignored. -/
theorem test_shl : let t := ran 0x812E (regs [(1, 0x40), (2, 0xFF)])
    (t.getV 1, t.getV 0xF) = (0x80, 0) := by decide
/-- A29: x = F. -/
theorem test_shl_vf : (ran 0x8FFE (regs [(0xF, 0x80)])).getV 0xF = 1 := by decide

/-! ## Index register and memory -/

/-- I1. -/
theorem test_ldI : (ran 0xA300 State.reset).i = 0x300 := by decide
/-- I3: past 0xFFF, no flag and no halt. -/
theorem test_addI : let t := ran 0xF21E { regs [(2, 1)] with i := 0xFFF }
    (t.i, t.getV 0xF, t.halted) = (0x1000, 0, false) := by decide
/-- I4: 16-bit wrap. -/
theorem test_addI_wrap : (ran 0xF21E { regs [(2, 2)] with i := 0xFFFF }).i = 1 := by decide
/-- I7: the low nibble only. -/
theorem test_ldF : (ran 0xF029 (regs [(0, 0x1A)])).i = 0x32 := by decide
/-- I9. -/
theorem test_ldB : (ran 0xF033 { regs [(0, 234)] with i := 0x300 }).mem.readBytes 0x300 3 = [2, 3, 4] := by decide
/-- I12: all or nothing. -/
theorem test_ldB_out : let t := ran 0xF033 { regs [(0, 255)] with i := 0xFFE }
    (halt t, t.mem.readBytes 0xFFE 2) = ((true, .outOfBoundsAccess, 0x202, some (.outOfBoundsAccess 0x1000)), [0, 0]) := by
  decide
/-- I14: V2 is not stored and I is unchanged. -/
theorem test_stRegs : let t := ran 0xF155 { regs [(0, 0x12), (1, 8), (2, 0x77)] with i := 0x208 }
    (t.mem.readBytes 0x208 3, t.i) = ([0x12, 8, 0], 0x208) := by decide
/-- I16: all or nothing. -/
theorem test_stRegs_out : let t := ran 0xFF55 { regs [(0, 0xA0)] with i := 0xFF1 }
    (halt t, t.mem.readByte 0xFF1) = ((true, .outOfBoundsAccess, 0x202, some (.outOfBoundsAccess 0x1000)), 0) := by decide
/-- I18. -/
theorem test_ldRegs : let t := ran 0xF265 (bytes 0x300 [2, 3, 4, 9] { State.reset with i := 0x300 })
    (t.getV 0, t.getV 1, t.getV 2, t.getV 3) = (2, 3, 4, 0) := by decide
/-- I20: no register is loaded. -/
theorem test_ldRegs_out : let t := ran 0xF165 (bytes 0xFFF [0x5A] { regs [(0, 1), (1, 2)] with i := 0xFFF })
    (t.err, t.getV 0, t.getV 1) = (.outOfBoundsAccess, 1, 2) := by decide

/-! ## Display -/

/-- S4v. -/
theorem test_cls : let t := ran 0x00E0 (pixels [(0, 0), (63, 31)] (regs [(0xF, 1)]))
    (rowOn t 0, rowOn t 31, t.getV 0xF) = ([], [], 1) := by decide
/-- D7: (3,0) goes from on to off, (4,0) from off to on. -/
theorem test_drw_collision :
    let t := ran 0xD011 (pixels [(0, 0), (1, 0), (2, 0), (3, 0)] (bytes 0x300 [0x18] { State.reset with i := 0x300 }))
    (rowOn t 0, t.getV 0xF) = ([0, 1, 2, 4], 1) := by decide
/-- Program P3's first draw: wrap on both axes. -/
theorem test_drw_wrap : let t := ran 0xD012 (bytes 0x20C [0xC0, 0xFF] { regs [(0, 62), (1, 31)] with i := 0x20C })
    (rowOn t 31, rowOn t 0, t.getV 0xF) = ([62, 63], [0, 1, 2, 3, 4, 5, 62, 63], 0) := by decide

/-! ## Keypad, timers, random -/

/-- K2 and K3. -/
theorem test_skp : ((ran 0xE09E (inputs 0xFFDF 0 (regs [(0, 5)]))).pc, (ran 0xE09E (inputs 0x20 0 (regs [(0, 0x15)]))).pc) =
    (0x202, 0x204) := by decide
/-- K5 and K6. -/
theorem test_sknp : ((ran 0xE0A1 (inputs 0 0 (regs [(0, 5)]))).pc, (ran 0xE0A1 (inputs 0x20 0 (regs [(0, 0xF5)]))).pc) =
    (0x204, 0x202) := by decide
/-- K7. -/
theorem test_ldVxDt : let t := ran 0xF307 { State.reset with dt := 0x3C }
    (t.getV 3, t.dt) = (0x3C, 0x3C) := by decide
/-- K13: no key, the instruction runs again. -/
theorem test_ldVxK_wait : let t := ran 0xF40A (inputs 0 0 (regs [(4, 0x99)]))
    (t.pc, t.getV 4, t.halted) = (0x200, 0x99, false) := by decide
/-- K15: the lowest of keys 2 and 8. -/
theorem test_ldVxK_key : let t := ran 0xF40A (inputs 0x104 0 (regs [(4, 0x99)]))
    (t.getV 4, t.pc) = (2, 0x202) := by decide
/-- K8. -/
theorem test_ldDtVx : (ran 0xF315 (regs [(3, 0x3C)])).dt = 0x3C := by decide
/-- K9. -/
theorem test_ldStVx : let t := ran 0xF318 (regs [(3, 2)])
    (t.st, t.tone) = (2, true) := by decide
/-- K10. -/
theorem test_rnd : (ran 0xC10F (inputs 0 0xA7 State.reset)).getV 1 = 0x07 := by decide

/-! ## The Step and the other events -/

/-- H5: without a Load, a DecodeError. -/
theorem test_step_reset : halt (after State.reset) = (true, .decodeError, 0x202, some (.decodeError 0)) := by decide
/-- H6: a Step of a halted core changes nothing. -/
theorem test_step_halted : SameMachine { State.reset with halted := true } (after { State.reset with halted := true }) := by
  intro p hp
  cases p <;> first | rfl | exact fun _ => rfl | exact fun _ _ => rfl | simp at hp
/-- T16: a fetch fault does not advance pc. -/
theorem test_fetch_out : halt (after { State.reset with pc := 0x10FE }) =
    (true, .outOfBoundsAccess, 0x10FE, some (.outOfBoundsAccess 0x10FE)) := by decide
/-- T20: the second byte is out of range. -/
theorem test_fetch_second_byte : halt (after { State.reset with pc := 0xFFF }) =
    (true, .outOfBoundsAccess, 0xFFF, some (.outOfBoundsAccess 0x1000)) := by decide
/-- T21's second Step: an odd pc fetches like any other. -/
theorem test_fetch_odd : let t := after (bytes 0x203 [0x6A, 0x55] { State.reset with pc := 0x203 })
    (t.getV 0xA, t.pc, t.halted) = (0x55, 0x205, false) := by decide
/-- K17's first Tick, and 0 stays 0. -/
theorem test_tick : let t := after { State.reset with dt := 2, pending := [.tick] }
    (t.dt, t.st) = (1, 0) := by decide
/-- H8. -/
theorem test_stop : halt (after { State.reset with pending := [.stop] }) = (true, .none, 0x200, none) := by decide
/-- R63: the bytes land in memory, the pc does not move. -/
theorem test_load : let t := after { State.reset with pending := [.load [0x60, 0xEA] 0x200] }
    (t.mem.readBytes 0x200 2, t.pc) = ([0x60, 0xEA], 0x200) := by decide
/-- H4: one byte too far. -/
theorem test_load_error : let t := after { State.reset with pending := [.load [1] 0x1000] }
    (t.mem, t.halted, t.err, t.report) = ([], false, .none, some (.loadError 0x1000 1)) := by decide
/-- The event after the head of the schedule comes next (R9). -/
theorem test_schedule : let t := after (after { State.reset with dt := 9, pending := [.tick, .tick, .tick], onward := .anything })
    (t.dt, t.pending, t.onward) = (7, [.tick], .anything) := by decide
/-- A word placed is what the next step runs, whatever was to come next. -/
theorem test_withFetchWord : ((ran 0x60EA { State.reset with onward := .anything }).getV 0,
    (ran 0x60EA { State.reset with halted := true, pc := 0xFFF, pending := [.reset] }).getV 0) = (0xEA, 0xEA) := by decide
/-- H7. -/
theorem test_reset : after { State.reset with halted := true, err := .decodeError, pc := 0x202, pending := [.reset] } =
    State.reset := by decide
/-- R32: STATUS after a StackUnderflow. -/
theorem test_status : (ran 0x00EE State.reset).status = 0b1100 := by decide
/-- R165: pixel (3, 1) is bit 67 of the snapshot. -/
theorem test_snapshot : packRows (pixels [(3, 1)] State.reset).fb.toList = 0x80000000000000000 := by decide

/-! ## Memory keeps its canonical form -/

/-- Writing what an unlisted address reads as removes the entry. -/
theorem test_memory_canonical : ((Memory.writeByte [] 7 1).writeByte 3 2).writeByte 7 0 = [(3, 2)] := by decide

/-! ## Witnesses: states and operands that meet the hypotheses of the statements -/

/-- A reset state with a jump to itself stored at 0x200, about to run it. -/
def looping : State := bytes 0x200 [0x12, 0x00] State.reset

theorem witness_return : ({ State.reset with sp := 16 } : State).sp.val = 15 + 1 ∧ State.reset.sp.val = 0 := by decide

theorem witness_call : ({ State.reset with sp := 15 } : State).sp.val < 16 ∧ ({ State.reset with sp := 16 } : State).sp.val = 16 := by
  decide

/-- The flag statements' clause x ≠ VF, and the form x = VF that it leaves to the flag. -/
theorem witness_flag_writers : (0 : Reg) ≠ vf ∧ ¬(0xF : Reg) ≠ vf := by decide

/-- Both clauses of the BCD statement at the boundary of I. -/
theorem witness_decimalDigits : State.reset.mem.wf ∧ ({ State.reset with i := 0xFFD } : State).i.toNat + 2 ≤ 0xFFF ∧
    0xFFF < ({ State.reset with i := 0xFFE } : State).i.toNat + 2 := by decide

/-- Both clauses of the block statements at the boundary of I, with x = 15. -/
theorem witness_blocks : State.reset.mem.wf ∧ ({ State.reset with i := 0xFF0 } : State).i.toNat + (0xF : Reg).toNat ≤ 0xFFF ∧
    0xFFF < ({ State.reset with i := 0xFF1 } : State).i.toNat + (0xF : Reg).toNat := by decide

theorem witness_storedBytes : let s : State := { State.reset with i := 0xFFE }
    s.mem.wf ∧ s.i.toNat + (1 : Reg).toNat ≤ 0xFFF ∧ (0 : Reg).toNat + 1 ≤ (1 : Reg).toNat ∧
      (0xFFE : Word).toNat = s.i.toNat + (0 : Reg).toNat := by decide

theorem witness_memoryPrimitives : State.reset.mem.wf ∧ 0xFFF ≤ 0xFFF ∧ 0xFFF < 0x1000 ∧
    State.reset.writeBlock 0xFFF [7] = .ok { State.reset with mem := [(0xFFF, 7)] } := by
  refine ⟨by decide, by decide, by decide, rfl⟩

/-- Both clauses of the draw statement: nothing read with n = 0, the last byte of memory, and one byte past it. -/
theorem witness_draw : ((0 : BitVec 4) = 0) ∧ ({ State.reset with i := 0xFFF } : State).i.toNat + (1 : BitVec 4).toNat - 1 ≤ 0xFFF ∧
    (2 : BitVec 4) ≠ 0 ∧ 0xFFF < ({ State.reset with i := 0xFFF } : State).i.toNat + (2 : BitVec 4).toNat - 1 := by decide

/-- Some pixel is on and covered, and none is. -/
theorem witness_draw_collision : let s := pixels [(0, 0)] (bytes 0x300 [0x80] { State.reset with i := 0x300 })
    s.fb.pixel 0 0 = true ∧ SpriteCovers s 0 1 1 0 0 ∧ ∀ y, State.reset.fb.pixel 0 y = false := by
  refine ⟨by decide, ⟨0, 0, by decide⟩, by decide⟩

theorem witness_draw_clear : (∀ x y, State.reset.fb.pixel x y = false) ∧ State.reset.i.toNat + (1 : BitVec 4).toNat - 1 ≤ 0xFFF := by
  refine ⟨fun x y => ?_, by decide⟩
  exact Framebuffer.pixel_clear x y

theorem witness_draw_twice : ∃ t, exec (.drw 0 1 1) State.reset = .next t ∧ Keeps .fb t t ∧ Keeps .mem State.reset t ∧
    Keeps .i State.reset t ∧ t.getV 0 = State.reset.getV 0 ∧ t.getV 1 = State.reset.getV 1 :=
  ⟨_, rfl, fun _ _ => rfl, fun _ => rfl, rfl, by decide, by decide⟩

theorem witness_keyWait : State.reset.keys = 0 ∧ ({ State.reset with keys := 0x8000 } : State).keys ≠ 0 := by decide

theorem witness_decode : (Instr.drw 1 2 15).wellFormed = true ∧ decodeWord 0xD12F = some (.drw 1 2 15) := by decide

theorem witness_rows : (Instr.shl 1 2).row ∈ opcodeRows ∧ (Instr.shl 1 2).row.accepts 0x812E = true := by decide

/-- The reset state is about to run a Step, with free inputs. -/
theorem witness_aboutToStep_free : AboutToStep State.reset
    { State.reset with keys := Config.freeKeys 0, rnd := Config.freeRnd 0, draws := 1 } :=
  ⟨_, _, _, .inr ⟨rfl, rfl, .inl ⟨rfl, rfl⟩⟩, rfl⟩

/-- With nothing pending and any event allowed, the next event is a free one. -/
theorem witness_takes_free : Takes (Config.freeEvent 7) { State.reset with onward := .anything, draws := 7 }
    { State.reset with onward := .anything, draws := 8 } :=
  .inr ⟨rfl, rfl, .inr ⟨rfl, rfl⟩⟩

/-- A pending event is the next one, and the rest stays pending. -/
theorem witness_takes (e : Event) (rest : List Event) (s : State) :
    Takes e { s with pending := e :: rest } { s with pending := rest, report := none } :=
  .inl ⟨rest, rfl, rfl⟩

/-- A state with a Step at the head of its schedule is about to run it. -/
theorem witness_aboutToStep (s : State) (k : BitVec 16) (r : Byte) :
    AboutToStep (inputs k r s) { s with keys := k, rnd := r, report := none, pending := [] } :=
  ⟨k, r, _, .inl ⟨[], rfl, rfl⟩, rfl⟩

/-- Running, at a pc that can be fetched at, before a legal word. -/
theorem witness_step_runs : ∃ t, AboutToStep (inputs 0 0 looping) t ∧ (inputs 0 0 looping).halted = false ∧
    (inputs 0 0 looping).pc.toNat ≤ 0xFFE ∧
    decodeWord (wordAt (inputs 0 0 looping).mem (inputs 0 0 looping).pc.toNat) = some (.jp 0x200) ∧
    (Instr.jp 0x200).wellFormed = true :=
  ⟨_, witness_aboutToStep looping 0 0, by decide, by decide, by decide, by decide⟩

/-- Running, before an illegal word: the reset state. -/
theorem witness_illegal : ∃ t, AboutToStep State.reset t ∧ State.reset.halted = false ∧ State.reset.pc.toNat ≤ 0xFFE ∧
    decodeWord (wordAt State.reset.mem State.reset.pc.toNat) = none :=
  ⟨_, witness_aboutToStep_free, by decide, by decide, by decide⟩

/-- Both clauses of the fetch statement at the boundary of pc. -/
theorem witness_fetch : ({ State.reset with pc := 0xFFE } : State).pc.toNat ≤ 0xFFE ∧
    ∃ t, AboutToStep (inputs 0 0 { State.reset with pc := 0xFFF }) t ∧
      (inputs 0 0 { State.reset with pc := 0xFFF }).halted = false ∧
      0xFFE < (inputs 0 0 { State.reset with pc := 0xFFF }).pc.toNat :=
  ⟨by decide, _, witness_aboutToStep _ 0 0, by decide, by decide⟩

theorem witness_halted : ∃ t, AboutToStep (inputs 0 0 { State.reset with halted := true }) t ∧
    (inputs 0 0 { State.reset with halted := true }).halted = true :=
  ⟨_, witness_aboutToStep _ 0 0, by decide⟩

/-- A skip at the top of memory, about to run with its condition true (or false, with `b = false`). -/
def SkipWitness (s : State) (i : Instr) (b : Bool) : Prop :=
  ∃ t c, AboutToStep s t ∧ s.halted = false ∧ s.pc.toNat ≤ 0xFFE ∧ decodeWord (wordAt s.mem s.pc.toNat) = some i ∧
    skipCondition i t = some c ∧ (c ↔ b = true)

/-- A state about to run the word at 0xFFE with the given keys, V0 = 5 and V1 = 5. -/
def atTop (w : Nat) (k : BitVec 16) : State :=
  inputs k 0 (State.withFetchWord { regs [(0, 5), (1, 5)] with pc := 0xFFE } 16 w)

theorem witness_skip_seImm : SkipWitness (atTop 0x3005 0) (.seImm 0 5) true ∧ SkipWitness (atTop 0x3006 0) (.seImm 0 6) false :=
  ⟨⟨_, _, witness_aboutToStep _ _ _, by decide, by decide, by decide, rfl, by decide⟩,
    ⟨_, _, witness_aboutToStep _ _ _, by decide, by decide, by decide, rfl, by decide⟩⟩

theorem witness_skip_sneImm : SkipWitness (atTop 0x4006 0) (.sneImm 0 6) true ∧ SkipWitness (atTop 0x4005 0) (.sneImm 0 5) false :=
  ⟨⟨_, _, witness_aboutToStep _ _ _, by decide, by decide, by decide, rfl, by decide⟩,
    ⟨_, _, witness_aboutToStep _ _ _, by decide, by decide, by decide, rfl, by decide⟩⟩

theorem witness_skip_seReg : SkipWitness (atTop 0x5010 0) (.seReg 0 1) true ∧ SkipWitness (atTop 0x5020 0) (.seReg 0 2) false :=
  ⟨⟨_, _, witness_aboutToStep _ _ _, by decide, by decide, by decide, rfl, by decide⟩,
    ⟨_, _, witness_aboutToStep _ _ _, by decide, by decide, by decide, rfl, by decide⟩⟩

theorem witness_skip_sneReg : SkipWitness (atTop 0x9020 0) (.sneReg 0 2) true ∧ SkipWitness (atTop 0x9010 0) (.sneReg 0 1) false :=
  ⟨⟨_, _, witness_aboutToStep _ _ _, by decide, by decide, by decide, rfl, by decide⟩,
    ⟨_, _, witness_aboutToStep _ _ _, by decide, by decide, by decide, rfl, by decide⟩⟩

theorem witness_skip_skp : SkipWitness (atTop 0xE09E 0x20) (.skp 0) true ∧ SkipWitness (atTop 0xE09E 0xFFDF) (.skp 0) false :=
  ⟨⟨_, _, witness_aboutToStep _ _ _, by decide, by decide, by decide, rfl, by decide⟩,
    ⟨_, _, witness_aboutToStep _ _ _, by decide, by decide, by decide, rfl, by decide⟩⟩

theorem witness_skip_sknp : SkipWitness (atTop 0xE0A1 0xFFDF) (.sknp 0) true ∧ SkipWitness (atTop 0xE0A1 0x20) (.sknp 0) false :=
  ⟨⟨_, _, witness_aboutToStep _ _ _, by decide, by decide, by decide, rfl, by decide⟩,
    ⟨_, _, witness_aboutToStep _ _ _, by decide, by decide, by decide, rfl, by decide⟩⟩

theorem witness_ended : ∃ t, AboutToStep (inputs 0 0 looping) t ∧ (inputs 0 0 looping).ended :=
  ⟨_, witness_aboutToStep looping 0 0, by decide, by decide, by decide⟩

/-- A running state about to run a Step that halts it. -/
def HaltingWitness (s : State) : Prop :=
  ∃ t u, AboutToStep s t ∧ s.halted = false ∧ step s = .next u ∧ u.halted = true

/-- A Step that halts a running core, with pc0 at most 0xFFE: in decode (the reset state), and at 0xFFE in decode and in
execute (a return with an empty stack). -/
theorem witness_precise : HaltingWitness State.reset ∧ HaltingWitness (atTop 0x0000 0) ∧ HaltingWitness (atTop 0x00EE 0) :=
  ⟨⟨_, _, witness_aboutToStep_free, by decide, rfl, by decide⟩, ⟨_, _, witness_aboutToStep _ _ _, by decide, rfl, by decide⟩,
    ⟨_, _, witness_aboutToStep _ _ _, by decide, rfl, by decide⟩⟩

/-- A Step that halts a running core in the fetch, with pc0 above 0xFFE. -/
theorem witness_precise_fetch : HaltingWitness (inputs 0 0 { State.reset with pc := 0xFFF }) ∧
    0xFFE < (inputs 0 0 { State.reset with pc := 0xFFF }).pc.toNat :=
  ⟨⟨_, _, witness_aboutToStep _ _ _, by decide, rfl, by decide⟩, by decide⟩

theorem witness_leaves_halted : let s : State := { State.reset with halted := true, err := .stackOverflow, pending := [.tick] }
    s.halted = true ∧ step s = .next (after s) ∧ ∀ t, ¬Takes .reset s t :=
  ⟨rfl, rfl, fun _ h => by cases h.takeEvent_eq⟩

/-- A state whose next event is a Tick, a Stop, a Reset. -/
theorem witness_events : (∃ s t, Takes .tick s t) ∧ (∃ s t, Takes .stop s t) ∧ (∃ s t, Takes .reset s t) :=
  ⟨⟨_, _, witness_takes .tick [.reset] State.reset⟩, ⟨_, _, witness_takes .stop [] State.reset⟩,
    ⟨_, _, witness_takes .reset [.tick] State.reset⟩⟩

/-- A Load that just fits and one that does not (H3 and H4), on canonical memory. -/
theorem witness_load :
    (∃ s t, s.mem.wf ∧ Takes (.load [1] 0xFFF) s t ∧ 0xFFF + ([1] : List Byte).length ≤ 4096) ∧
      (∃ s t, s.mem.wf ∧ Takes (.load [1] 0x1000) s t ∧ 4096 < 0x1000 + ([1] : List Byte).length) :=
  ⟨⟨_, _, by decide, witness_takes _ [.tick] State.reset, by decide⟩,
    ⟨_, _, by decide, witness_takes _ [.tick] State.reset, by decide⟩⟩

/-- A state of the invariant with an entry on the stack, and a step from it. -/
theorem witness_invariant : ∃ s t : State, s.Inv ∧ s.sp.val = 1 ∧ s.halted = false ∧ step s = .next t := by
  refine ⟨{ State.reset with sp := 1, stack := State.reset.stack.set 0 0x1000, pc := 0x10FE }, _, ?_, rfl, rfl, rfl⟩
  refine ⟨by decide, by decide, ?_, fun _ => rfl, by decide⟩
  decide

/-- An instruction of none of the classes that the whole-machine statements leave out. -/
theorem witness_classes : (Instr.addReg 1 2).setsPc = false ∧ (Instr.addReg 1 2).storesToMemory = false ∧
    (Instr.addReg 1 2).readsInput = false ∧ Instr.addReg 1 2 ≠ .cls ∧ (∀ x y n, Instr.addReg 1 2 ≠ .drw x y n) ∧
    ∃ t, exec (.addReg 1 2) State.reset = .next t :=
  ⟨rfl, rfl, rfl, by decide, by decide, _, rfl⟩

end Sys2Proof.Tests
end

/-! ## The fetch of a Step (spec/40_step_cycle.md R101) -/

namespace Sys2Proof.Machine

variable {s t : State}

/-- Taking a Step off the schedule leaves pc where the fetch reads it. -/
theorem AboutToStep.pc_eq (h : AboutToStep s t) : t.pc = s.pc := h.sameMachine .pc (by decide)

/-- Taking a Step off the schedule leaves the FSM state. -/
theorem AboutToStep.halted_eq (h : AboutToStep s t) : t.halted = s.halted := h.sameMachine .halted (by decide)

/-- R101, the fetch that succeeds: no condition on pc but its bound, so an odd pc is like any other (R56). -/
theorem State.fetch_eq_wordAt (h : s.pc.toNat ≤ 0xFFE) : s.fetch = .ok (wordAt s.mem s.pc.toNat) := by
  rcases s.fetch_cases with ⟨_, hok⟩ | ⟨habove, _⟩
  · exact hok
  · omega

/-- R101, the fetch that fails: the first offending address is pc + 1 = 0x1000 for pc = 0xFFF, and pc above that. -/
theorem State.fetch_eq_outOfBounds (h : 0xFFE < s.pc.toNat) :
    s.fetch = .error (.outOfBoundsAccess (max s.pc.toNat 0x1000)) := by
  rcases s.fetch_cases with ⟨hbelow, _⟩ | ⟨_, herr⟩
  · omega
  · have haddr : (if 0xFFF < s.pc.toNat then s.pc.toNat else 0x1000) = max s.pc.toNat 0x1000 := by
      split <;> omega
    rw [herr, haddr]

/-- A Step whose fetch fails ends in the fetch, before the advance: it raises the fetch's error and nothing else. -/
theorem AboutToStep.step_eq_raise_of_fetch_error {e : Report} (h : AboutToStep s t) (hrun : t.halted = false)
    (hfetch : t.fetch = .error e) : step s = .next (t.raise e) := by
  have hphase : t.fetchDecode = .done (t.raise e) := by simp [State.fetchDecode, hrun, hfetch]
  rw [h.step_eq, hphase]

/-- Settles O42: up to 0xFFE by the successful fetch; above it the Step raises the failed fetch's error in the state
with the inputs sampled, whose pc and FSM state are the old ones. -/
theorem fetchReadsTwoBytesOrHalts : Obligations.FetchReadsTwoBytesOrHalts := by
  refine ⟨fun _ => State.fetch_eq_wordAt, fun s t ht hrun hpc => ?_⟩
  have hfetch : t.fetch = .error (.outOfBoundsAccess (max s.pc.toNat 0x1000)) := by
    rw [← ht.pc_eq] at hpc ⊢
    exact State.fetch_eq_outOfBounds hpc
  have hstep := ht.step_eq_raise_of_fetch_error (ht.halted_eq.trans hrun) hfetch
  exact ⟨_, hstep, t.raise_haltsWith _⟩

end Sys2Proof.Machine

/-! ## Control transfer: return, jump and the skips on an immediate (spec/41_control_flow.md) -/

namespace Sys2Proof.Machine

variable {s : State}

/-! ### The fetch at a jump's target -/

/-- R101: exactly the addresses above 0xFFE cannot be fetched at. -/
theorem State.fetch_fails_iff : (∃ e, s.fetch = .error e) ↔ 0xFFE < s.pc.toNat := by
  constructor
  · rintro ⟨e, herr⟩
    by_contra hle
    rw [State.fetch_eq_wordAt (by omega)] at herr
    cases herr
  · exact fun habove => ⟨_, State.fetch_eq_outOfBounds habove⟩

/-- Of the 12-bit addresses only the top of memory has no second byte (R111). -/
theorem ffe_lt_toNat_iff_eq_fff (nnn : BitVec 12) : 0xFFE < nnn.toNat ↔ nnn = 0xFFF := by
  rw [← BitVec.toNat_inj, show (0xFFF : BitVec 12).toNat = 0xFFF from rfl]
  omega

/-- `1nnn` is an absolute jump (R111). -/
theorem exec_jp (nnn : BitVec 12) (s : State) : exec (.jp nnn) s = .next (s.setPc (addressOf nnn)) := rfl

/-- Settles O2: the new pc is nnn as a number, and a fetch fails exactly above 0xFFE. -/
theorem jumpGoesToNnn : Obligations.JumpGoesToNnn := by
  intro nnn s
  have hfetch : (∃ e, (s.setPc (addressOf nnn)).fetch = .error e) ↔ nnn = 0xFFF := by
    rw [State.fetch_fails_iff, State.setPc_pc, toNat_addressOf, ffe_lt_toNat_iff_eq_fff]
  exact ⟨_, exec_jp nnn s, toNat_addressOf nnn, s.setPc_onlyChanges _, hfetch⟩

/-! ### Skips -/

/-- A skip on equality (R113, R115). -/
theorem State.skipIf_beq_pc (s : State) (a b : Byte) :
    (s.skipIf (a == b)).pc = if a = b then s.pc + 2 else s.pc := by
  simp only [State.skipIf_pc, beq_iff_eq]

/-- A skip on difference, said with the branches of equality (R114, R116). -/
theorem State.skipIf_bne_pc (s : State) (a b : Byte) :
    (s.skipIf (a != b)).pc = if a = b then s.pc else s.pc + 2 := by
  simp only [State.skipIf_pc, bne_iff_ne, ite_not]

/-- `3xnn` skips on equality with the immediate (R113). -/
theorem exec_seImm (x : Reg) (nn : Byte) (s : State) :
    exec (.seImm x nn) s = .next (s.skipIf (s.getV x == nn)) := rfl

/-- `4xnn` skips on difference from the immediate (R114). -/
theorem exec_sneImm (x : Reg) (nn : Byte) (s : State) :
    exec (.sneImm x nn) s = .next (s.skipIf (s.getV x != nn)) := rfl

/-- Settles O4: both are `skipIf`, which changes pc only, on equality and on difference. -/
theorem skipsComparingAnImmediate : Obligations.SkipsComparingAnImmediate := by
  intro x nn s
  constructor
  · exact ⟨_, exec_seImm x nn s, s.skipIf_beq_pc _ _, s.skipIf_onlyChanges _⟩
  · exact ⟨_, exec_sneImm x nn s, s.skipIf_bne_pc _ _, s.skipIf_onlyChanges _⟩

/-! ### Return -/

/-- Moving the stack depth changes no slot (R29). -/
theorem State.withSp_onlyChanges (s : State) (n : Fin 17) : OnlyChanges [.sp] s { s with sp := n } := by
  intro p hp
  cases p <;> simp_all [Keeps, State.getV]

/-- `pop` with k + 1 valid entries answers slot k and a depth of k (R29). -/
theorem State.pop_eq_ok {k : Nat} (hk : k < 16) (hsp : s.sp.val = k + 1) :
    s.pop = .ok (s.stack[k]'hk, { s with sp := ⟨k, by omega⟩ }) := by
  rcases s.pop_cases with ⟨j, _, hj, hok⟩ | ⟨hempty, _⟩
  · obtain rfl : j = k := by omega
    exact hok
  · omega

/-- `pop` with no valid entry fails (R204). -/
theorem State.pop_eq_stackUnderflow (hsp : s.sp.val = 0) : s.pop = .error .stackUnderflow := by
  rcases s.pop_cases with ⟨_, _, hsucc, _⟩ | ⟨_, herr⟩
  · omega
  · exact herr

/-- `00EE` pops into pc, or raises (R110). -/
theorem exec_ret (s : State) : exec .ret s = .next (s.attempt s.pop fun p => p.2.setPc p.1) := rfl

/-- `00EE` with k + 1 valid entries (R110). -/
theorem exec_ret_eq_setPc {k : Nat} (hk : k < 16) (hsp : s.sp.val = k + 1) :
    exec .ret s = .next (State.setPc { s with sp := ⟨k, by omega⟩ } (s.stack[k]'hk)) := by
  rw [exec_ret, State.pop_eq_ok hk hsp, State.attempt_ok]

/-- `00EE` with an empty stack (R110, R204). -/
theorem exec_ret_eq_raise (hsp : s.sp.val = 0) : exec .ret s = .next (s.raise .stackUnderflow) := by
  rw [exec_ret, State.pop_eq_stackUnderflow hsp, State.attempt_error]

/-- Settles O1: with an entry, the newest slot becomes pc, and in a state of the invariant a valid slot is at most
0x1000; with none, the error is raised in the state before the pop. -/
theorem returnPopsTheStackOrUnderflows : Obligations.ReturnPopsTheStackOrUnderflows := by
  refine fun s => ⟨fun k hk hsp => ?_, fun hsp => ?_⟩
  · have hframe : OnlyChanges [.pc, .sp] s (State.setPc { s with sp := ⟨k, by omega⟩ } (s.stack[k]'hk)) :=
      ((s.withSp_onlyChanges _).mono (by simp)).trans ((State.setPc_onlyChanges _ _).mono (by simp))
    exact ⟨_, exec_ret_eq_setPc hk hsp, rfl, rfl, hframe, fun hinv => hinv.stackBound k hk (by omega)⟩
  · exact ⟨_, exec_ret_eq_raise hsp, s.raise_haltsWith _⟩

end Sys2Proof.Machine

/-! ## Register load and ALU: loads, logic and the two additions (spec/42_load_alu.md) -/

namespace Sys2Proof.Machine

/-! ### One result register -/

/-- A register reads back what was written to it (R22). -/
theorem State.getV_setV_self (s : State) (x : Reg) (b : Byte) : (s.setV x b).getV x = b := by
  rw [State.getV_setV, if_pos rfl]

/-- A register write leaves every other register (R22). -/
theorem State.setV_onlyWrites (s : State) (x : Reg) (b : Byte) : OnlyWrites [x] s (s.setV x b) := by
  intro r hr
  have hne : r ≠ x := by simpa using hr
  rw [State.getV_setV, if_neg hne]

/-- Copying V[y] leaves V[y] as it was, also where it is the destination (R127). -/
theorem State.getV_source_setV (s : State) (x y : Reg) : (s.setV x (s.getV y)).getV y = s.getV y := by
  rw [State.getV_setV, ite_self]

/-- The exact form of a byte sum: modulo 256 (R136). -/
theorem toNat_add_byte (a b : Byte) : (a + b).toNat = (a.toNat + b.toNat) % 256 := BitVec.toNat_add a b

/-- `6xnn` writes the immediate (R125). -/
theorem exec_ldImm (x : Reg) (nn : Byte) (s : State) : exec (.ldImm x nn) s = .next (s.setV x nn) := rfl

/-- `7xnn` writes the sum with the immediate (R126). -/
theorem exec_addImm (x : Reg) (nn : Byte) (s : State) :
    exec (.addImm x nn) s = .next (s.setV x (s.getV x + nn)) := rfl

/-- `8xy0` writes the source register's byte (R127). -/
theorem exec_ldReg (x y : Reg) (s : State) : exec (.ldReg x y) s = .next (s.setV x (s.getV y)) := rfl

/-- `8xy1` writes the OR (R128). -/
theorem exec_orReg (x y : Reg) (s : State) :
    exec (.orReg x y) s = .next (s.setV x (s.getV x ||| s.getV y)) := rfl

/-- `8xy2` writes the AND (R129). -/
theorem exec_andReg (x y : Reg) (s : State) :
    exec (.andReg x y) s = .next (s.setV x (s.getV x &&& s.getV y)) := rfl

/-- `8xy3` writes the XOR (R130). -/
theorem exec_xorReg (x y : Reg) (s : State) :
    exec (.xorReg x y) s = .next (s.setV x (s.getV x ^^^ s.getV y)) := rfl

/-- Settles O8: the instruction is one write of V[x]. -/
theorem loadImmediateSetsVx : Obligations.LoadImmediateSetsVx := by
  intro x nn s
  exact ⟨_, exec_ldImm x nn s, s.getV_setV_self x nn, s.setV_onlyWrites x _, s.setV_onlyChanges x _⟩

/-- Settles O9: one write of V[x], of a sum of bytes; a flag would be a second register. -/
theorem addImmediateWrapsWithoutFlag : Obligations.AddImmediateWrapsWithoutFlag := by
  intro x nn s
  have hsum : ((s.setV x (s.getV x + nn)).getV x).toNat = ((s.getV x).toNat + nn.toNat) % 256 := by
    rw [State.getV_setV_self, toNat_add_byte]
  exact ⟨_, exec_addImm x nn s, hsum, s.setV_onlyWrites x _, s.setV_onlyChanges x _⟩

/-- Settles O10: one write of V[x]; with x = y it writes back the byte that is there. -/
theorem copyRegisterSetsVxToVy : Obligations.CopyRegisterSetsVxToVy := by
  intro x y s
  exact ⟨_, exec_ldReg x y s, s.getV_setV_self x _, s.getV_source_setV x y, s.setV_onlyWrites x _,
    s.setV_onlyChanges x _⟩

/-- Settles O11: each is one write of V[x], and its byte has the bits of the operation. -/
theorem logicOperationsActBitByBit : Obligations.LogicOperationsActBitByBit := by
  intro x y s
  refine ⟨⟨_, exec_orReg x y s, fun k => ?_, s.setV_onlyWrites x _, s.setV_onlyChanges x _⟩,
    ⟨_, exec_andReg x y s, fun k => ?_, s.setV_onlyWrites x _, s.setV_onlyChanges x _⟩,
    ⟨_, exec_xorReg x y s, fun k => ?_, s.setV_onlyWrites x _, s.setV_onlyChanges x _⟩⟩
  · rw [State.getV_setV_self, BitVec.getLsbD_or]
  · rw [State.getV_setV_self, BitVec.getLsbD_and]
  · rw [State.getV_setV_self, BitVec.getLsbD_xor]

/-! ### A result register and the flag -/

/-- A result register other than VF keeps the result past the flag write (R137). -/
theorem State.getV_setResultAndFlag_of_ne {x : Reg} (hx : x ≠ vf) (s : State) (b : Byte) (c : Bool) :
    (s.setResultAndFlag x b c).getV x = b := by
  rw [State.getV_setResultAndFlag, if_neg hx, if_pos rfl]

/-- VF holds the flag, also where it is the result register (R23, R137). -/
theorem State.getV_setResultAndFlag_vf (s : State) (x : Reg) (b : Byte) (c : Bool) :
    (s.setResultAndFlag x b c).getV vf = flagByte c := by
  rw [State.getV_setResultAndFlag, if_pos rfl]

/-- Writing a result and the flag leaves every register but V[x] and VF (R24, R137). -/
theorem State.setResultAndFlag_onlyWrites (s : State) (x : Reg) (b : Byte) (c : Bool) :
    OnlyWrites [x, vf] s (s.setResultAndFlag x b c) := by
  intro r hr
  obtain ⟨hx, hvf⟩ : r ≠ x ∧ r ≠ vf := by simpa using hr
  rw [State.getV_setResultAndFlag, if_neg hvf, if_neg hx]

/-- The byte of a flag that says whether a condition holds (R23). -/
theorem flagByte_decide (p : Prop) [Decidable p] : flagByte (decide p) = if p then 1 else 0 := by
  simp only [flagByte, decide_eq_true_eq]

/-- The carry as the byte written to VF (R131). -/
theorem flagByte_carryOut (a b : Byte) :
    flagByte (carryOut a b) = if 255 < a.toNat + b.toNat then 1 else 0 := flagByte_decide _

/-- `8xy4` writes the sum, then the carry (R131). -/
theorem exec_addReg (x y : Reg) (s : State) : exec (.addReg x y) s =
    .next (s.setResultAndFlag x (s.getV x + s.getV y) (carryOut (s.getV x) (s.getV y))) := rfl

/-- Settles O12: the sum is written to V[x] and then the carry of the old bytes to VF, which with x = 15 replaces the
sum. -/
theorem addSetsCarry : Obligations.AddSetsCarry := by
  intro x y s
  refine ⟨_, exec_addReg x y s, fun hx => ?_, ?_, s.setResultAndFlag_onlyWrites x _ _,
    s.setResultAndFlag_onlyChanges x _ _⟩
  · rw [State.getV_setResultAndFlag_of_ne hx, toNat_add_byte]
  · rw [State.getV_setResultAndFlag_vf, flagByte_carryOut]

end Sys2Proof.Machine

/-! ## The index register (spec/43_index_memory.md) -/

namespace Sys2Proof.Machine

/-- `Annn` writes I (R145). -/
theorem exec_ldI (nnn : BitVec 12) (s : State) : exec (.ldI nnn) s = .next (s.setI (addressOf nnn)) := rfl

/-- Settles O18: the instruction is one write of I, with the 12-bit immediate zero-extended. -/
theorem loadIndexSetsI : Obligations.LoadIndexSetsI := by
  intro nnn s
  have hindex : (s.setI (addressOf nnn)).i.toNat = nnn.toNat := by
    rw [State.setI_i, toNat_addressOf]
  exact ⟨_, exec_ldI nnn s, hindex, s.setI_onlyChanges _⟩

end Sys2Proof.Machine

/-! ## Clear screen (spec/44_display.md) -/

namespace Sys2Proof.Machine

/-- Replacing the framebuffer changes the display only. -/
theorem State.withFb_onlyChanges (s : State) (fb : Framebuffer) : OnlyChanges [.fb] s { s with fb := fb } := by
  intro p hp
  cases p
  case fb => exact absurd (List.mem_singleton_self _) hp
  all_goals simp [Keeps, State.getV]

/-- `00E0` replaces the framebuffer by the clear one (R160). -/
theorem exec_cls (s : State) : exec .cls s = .next { s with fb := Framebuffer.clear } := rfl

/-- Settles O26: the instruction is one replacement of the framebuffer, and the clear one has every pixel off. -/
theorem clearScreenTurnsAllPixelsOff : Obligations.ClearScreenTurnsAllPixelsOff := by
  intro s
  exact ⟨_, exec_cls s, Framebuffer.pixel_clear, s.withFb_onlyChanges _⟩

end Sys2Proof.Machine

/-! ## The decoder and the encoder (spec/30_encoding.md) -/

namespace Sys2Proof

/-! ### Decoding what was encoded -/

/-- The opcode that is none of 0 to E is F. -/
theorem eq_majorF {op : BitVec 4} (hop : op ∉ [0x0#4, 0x1#4, 0x2#4, 0x3#4, 0x4#4, 0x5#4, 0x6#4, 0x7#4, 0x8#4, 0x9#4,
    0xA#4, 0xB#4, 0xC#4, 0xD#4, 0xE#4]) : op = 0xF#4 := by
  revert op
  decide

/-- Major F, the dispatcher's last arm, is selected by the opcode F (R84). -/
theorem decodeWord_majorF {w : Word} (h : opField w = 0xF#4) : decodeWord w = decodeMajorF (xField w) (nnField w) := by
  unfold decodeWord
  split <;> simp_all

/-- The decoder reads every instruction back from its word: for each shape of word it finds the fields that the encoder
put there (R82, R85). -/
theorem decodeWord_encode (i : Instr) : decodeWord (encode i) = some i := by
  cases i with
  | cls | ret => rfl
  | jp nnn | call nnn | ldI nnn | jpV0 nnn =>
    simp only [encode, decodeWord, opField_nnn, nnnField_nnn]
  | seImm x nn | sneImm x nn | ldImm x nn | addImm x nn | rnd x nn =>
    simp only [encode, decodeWord, opField_xnn, xField_xnn, nnField_xnn]
  | seReg x y | sneReg x y =>
    simp only [encode, decodeWord, opField_xyn, xField_xyn, yField_xyn, nField_xyn, if_true]
  | ldReg x y | orReg x y | andReg x y | xorReg x y | addReg x y | subReg x y | shr x y | subn x y | shl x y =>
    simp only [encode, decodeWord, decodeMajor8, opField_xyn, xField_xyn, yField_xyn, nField_xyn]
  | drw x y n => simp only [encode, decodeWord, opField_xyn, xField_xyn, yField_xyn, nField_xyn]
  | skp x | sknp x => simp only [encode, decodeWord, decodeMajorE, opField_xnn, xField_xnn, nnField_xnn]
  | ldVxDt x | ldVxK x | ldDtVx x | ldStVx x | addI x | ldF x | ldB x | stRegs x | ldRegs x =>
    rw [encode, decodeWord_majorF (opField_xnn 0xF#4 x _), xField_xnn, nnField_xnn, decodeMajorF]

/-- Settles O35: the two bytes are put together to the word again, and the word decodes to its instruction. -/
theorem decodeOfEncodeIsTheInstruction : Obligations.DecodeOfEncodeIsTheInstruction := by
  intro i rest _
  simp only [decodeBytes, wordOfBytes_bytes, decodeWord_encode]

/-- Settles O39: each word evaluates. -/
theorem wordsOfTheTableDecode : Obligations.WordsOfTheTableDecode := by
  unfold Obligations.WordsOfTheTableDecode
  decide

/-! ### Encoding what was decoded -/

/-- Major 0 has two words, each its instruction's own (R84). -/
theorem encode_of_decodeMajor0 {w : Word} {i : Instr} (h : decodeMajor0 w = some i) : encode i = w := by
  unfold decodeMajor0 at h
  split_ifs at h with hcls hret <;> cases h
  · exact hcls.symm
  · exact hret.symm

/-- Under major 8 the instruction keeps x, y and n (R85). -/
theorem encode_of_decodeMajor8 {x y : Reg} {n : BitVec 4} {i : Instr} (h : decodeMajor8 x y n = some i) :
    encode i = 0x8#4 ++ x ++ y ++ n := by
  unfold decodeMajor8 at h
  split at h <;> cases h <;> rfl

/-- Under major E the instruction keeps x and nn (R85). -/
theorem encode_of_decodeMajorE {x : Reg} {nn : Byte} {i : Instr} (h : decodeMajorE x nn = some i) :
    encode i = 0xE#4 ++ x ++ nn := by
  unfold decodeMajorE at h
  split at h <;> cases h <;> rfl

/-- Under major F the instruction keeps x and nn (R85). -/
theorem encode_of_decodeMajorF {x : Reg} {nn : Byte} {i : Instr} (h : decodeMajorF x nn = some i) :
    encode i = 0xF#4 ++ x ++ nn := by
  unfold decodeMajorF at h
  split at h <;> cases h <;> rfl

/-- A word with a known opcode is that opcode and its nnn. -/
theorem append_nnn_of_opField {w : Word} {op : BitVec 4} (h : opField w = op) : op ++ nnnField w = w :=
  h ▸ append_fields_nnn w

/-- A word with a known opcode is that opcode, its x and its nn. -/
theorem append_xnn_of_opField {w : Word} {op : BitVec 4} (h : opField w = op) : op ++ xField w ++ nnField w = w :=
  h ▸ append_fields_xnn w

/-- A word with a known opcode is that opcode and its three other nibbles. -/
theorem append_xyn_of_opField {w : Word} {op : BitVec 4} (h : opField w = op) :
    op ++ xField w ++ yField w ++ nField w = w :=
  h ▸ append_fields_xyn w

/-- A word with a known opcode and last nibble is these with its x and y between them. -/
theorem append_xy_of_fields {w : Word} {op n : BitVec 4} (h : opField w = op) (hn : nField w = n) :
    op ++ xField w ++ yField w ++ n = w :=
  hn ▸ append_xyn_of_opField h

/-- A word with a known opcode and low byte is these with its x between them. -/
theorem append_x_of_fields {w : Word} {op : BitVec 4} {nn : Byte} (h : opField w = op) (hnn : nnField w = nn) :
    op ++ xField w ++ nn = w :=
  hnn ▸ append_xnn_of_opField h

/-- Settles O36: under each major opcode the instruction's fields, and its fixed bits, are those of the word. -/
theorem encodeOfDecodeIsTheWord : Obligations.EncodeOfDecodeIsTheWord := by
  intro w i h
  unfold decodeWord at h
  split at h
  case h_1 => exact encode_of_decodeMajor0 h
  case h_2 op | h_3 op | h_11 op | h_12 op => cases h; exact append_nnn_of_opField op
  case h_4 op | h_5 op | h_7 op | h_8 op | h_13 op => cases h; exact append_xnn_of_opField op
  case h_6 op | h_10 op =>
    split at h
    · rename_i hn
      cases h
      exact append_xy_of_fields op hn
    · cases h
  case h_9 op => exact (encode_of_decodeMajor8 h).trans (append_xyn_of_opField op)
  case h_14 op => cases h; exact append_xyn_of_opField op
  case h_15 op => exact (encode_of_decodeMajorE h).trans (append_xnn_of_opField op)
  case h_16 =>
    have op : opField w = 0xF#4 := eq_majorF (by simp_all)
    exact (encode_of_decodeMajorF h).trans (append_xnn_of_opField op)


/-! ### The illegal words -/

/-- Major 0 has no word but two (R84). -/
theorem decodeMajor0_eq_none (w : Word) : decodeMajor0 w = none ↔ w ≠ 0x00E0 ∧ w ≠ 0x00EE := by
  unfold decodeMajor0
  split_ifs <;> simp_all

/-- The values of n that select nothing under major 8 (R87). -/
theorem decodeMajor8_eq_none (x y : Reg) (n : BitVec 4) :
    decodeMajor8 x y n = none ↔ n ∈ [0x8#4, 0x9#4, 0xA#4, 0xB#4, 0xC#4, 0xD#4, 0xF#4] := by
  have hlegal : ∀ n : BitVec 4, n ∉ [0x0#4, 0x1#4, 0x2#4, 0x3#4, 0x4#4, 0x5#4, 0x6#4, 0x7#4, 0xE#4] →
      n ∈ [0x8#4, 0x9#4, 0xA#4, 0xB#4, 0xC#4, 0xD#4, 0xF#4] := by decide
  unfold decodeMajor8
  split
  case h_10 => exact iff_of_true rfl (hlegal n (by simp_all))
  all_goals simp

/-- Major E is selected by two values of nn (R87). -/
theorem decodeMajorE_eq_none (x : Reg) (nn : Byte) : decodeMajorE x nn = none ↔ nn ≠ 0x9E ∧ nn ≠ 0xA1 := by
  unfold decodeMajorE
  split <;> simp_all

/-- Major F is selected by nine values of nn (R87). -/
theorem decodeMajorF_eq_none (x : Reg) (nn : Byte) : decodeMajorF x nn = none ↔
    nn ∉ [0x07#8, 0x0A#8, 0x15#8, 0x18#8, 0x1E#8, 0x29#8, 0x33#8, 0x55#8, 0x65#8] := by
  unfold decodeMajorF
  split <;> simp_all

/-- Settles O38: opcode by opcode, the word is refused where its sub-opcode is, or never. -/
theorem illegalWordsByMajor : Obligations.IllegalWordsByMajor := by
  intro w
  unfold decodeWord
  split
  case h_1 op => simp [op, decodeMajor0_eq_none]
  case h_6 op | h_10 op => simp [op]
  case h_9 op => rw [decodeMajor8_eq_none]; simp [op]
  case h_15 op => simp [op, decodeMajorE_eq_none]
  case h_16 =>
    have op : opField w = 0xF#4 := eq_majorF (by simp_all)
    rw [decodeMajorF_eq_none]
    simp [op]
  case h_2 op | h_3 op | h_4 op | h_5 op | h_7 op | h_8 op | h_11 op | h_12 op | h_13 op | h_14 op => simp [op]

/-! ### The rows -/

/-- A word that shows an opcode under the mask 0xF000 is that opcode and its nnn. -/
theorem append_nnn_of_mask {w : Word} {op : BitVec 4} (h : w &&& 0xF000 = op ++ 0x000#12) : op ++ nnnField w = w := by
  have hmask := Laws.mask_nnn (opField w) (nnnField w)
  rw [append_fields_nnn] at hmask
  have hfield := congrArg opField (hmask.symm.trans h)
  exact append_nnn_of_opField (by simpa using hfield)

/-- The same with the word's x and nn. -/
theorem append_xnn_of_mask {w : Word} {op : BitVec 4} (h : w &&& 0xF000 = op ++ 0x0#4 ++ 0x00#8) :
    op ++ xField w ++ nnField w = w := by
  have hmask := Laws.mask_xnn (opField w) (xField w) (nnField w)
  rw [append_fields_xnn] at hmask
  have hfield := congrArg opField (hmask.symm.trans h)
  exact append_xnn_of_opField (by simpa using hfield)

/-- The same with the word's x, y and n. -/
theorem append_xyn_of_mask {w : Word} {op : BitVec 4} (h : w &&& 0xF000 = op ++ 0x0#4 ++ 0x0#4 ++ 0x0#4) :
    op ++ xField w ++ yField w ++ nField w = w := by
  have hmask := Laws.mask_xyn (opField w) (xField w) (yField w) (nField w)
  rw [append_fields_xyn] at hmask
  have hfield := congrArg opField (hmask.symm.trans h)
  exact append_xyn_of_opField (by simpa using hfield)

/-- A word that shows an opcode and a last nibble under the mask 0xF00F is these with its x and y between them. -/
theorem append_xy_of_mask {w : Word} {op n : BitVec 4} (h : w &&& 0xF00F = op ++ 0x0#4 ++ 0x0#4 ++ n) :
    op ++ xField w ++ yField w ++ n = w := by
  have hmask := Laws.mask_xy (opField w) (xField w) (yField w) (nField w)
  rw [append_fields_xyn] at hmask
  have hop := congrArg opField (hmask.symm.trans h)
  have hn := congrArg nField (hmask.symm.trans h)
  exact append_xy_of_fields (by simpa using hop) (by simpa using hn)

/-- A word that shows an opcode and a low byte under the mask 0xF0FF is these with its x between them. -/
theorem append_x_of_mask {w : Word} {op : BitVec 4} {nn : Byte} (h : w &&& 0xF0FF = op ++ 0x0#4 ++ nn) :
    op ++ xField w ++ nn = w := by
  have hmask := Laws.mask_x (opField w) (xField w) (nnField w)
  rw [append_fields_xnn] at hmask
  have hop := congrArg opField (hmask.symm.trans h)
  have hnn := congrArg nnField (hmask.symm.trans h)
  exact append_x_of_fields (by simpa using hop) (by simpa using hnn)

/-- The row of every instruction is one of the table's: the row of its representative (R85). -/
theorem Instr.row_mem_opcodeRows (i : Instr) : i.row ∈ opcodeRows := by
  cases i <;> simp [opcodeRows, rowRepresentatives, Instr.row]

/-- The row of an instruction accepts the instruction's word (R85). -/
theorem Instr.row_accepts_encode (i : Instr) : i.row.accepts (encode i) = true := by
  have hbits : Laws.FixedBits.Statement i := by
    cases i with
    | cls => exact Laws.FixedBits.cls
    | ret => exact Laws.FixedBits.ret
    | jp nnn => exact Laws.FixedBits.jp nnn
    | call nnn => exact Laws.FixedBits.call nnn
    | seImm x nn => exact Laws.FixedBits.seImm x nn
    | sneImm x nn => exact Laws.FixedBits.sneImm x nn
    | seReg x y => exact Laws.FixedBits.seReg x y
    | ldImm x nn => exact Laws.FixedBits.ldImm x nn
    | addImm x nn => exact Laws.FixedBits.addImm x nn
    | ldReg x y => exact Laws.FixedBits.ldReg x y
    | orReg x y => exact Laws.FixedBits.orReg x y
    | andReg x y => exact Laws.FixedBits.andReg x y
    | xorReg x y => exact Laws.FixedBits.xorReg x y
    | addReg x y => exact Laws.FixedBits.addReg x y
    | subReg x y => exact Laws.FixedBits.subReg x y
    | shr x y => exact Laws.FixedBits.shr x y
    | subn x y => exact Laws.FixedBits.subn x y
    | shl x y => exact Laws.FixedBits.shl x y
    | sneReg x y => exact Laws.FixedBits.sneReg x y
    | ldI nnn => exact Laws.FixedBits.ldI nnn
    | jpV0 nnn => exact Laws.FixedBits.jpV0 nnn
    | rnd x nn => exact Laws.FixedBits.rnd x nn
    | drw x y n => exact Laws.FixedBits.drw x y n
    | skp x => exact Laws.FixedBits.skp x
    | sknp x => exact Laws.FixedBits.sknp x
    | ldVxDt x => exact Laws.FixedBits.ldVxDt x
    | ldVxK x => exact Laws.FixedBits.ldVxK x
    | ldDtVx x => exact Laws.FixedBits.ldDtVx x
    | ldStVx x => exact Laws.FixedBits.ldStVx x
    | addI x => exact Laws.FixedBits.addI x
    | ldF x => exact Laws.FixedBits.ldF x
    | ldB x => exact Laws.FixedBits.ldB x
    | stRegs x => exact Laws.FixedBits.stRegs x
    | ldRegs x => exact Laws.FixedBits.ldRegs x
  exact beq_iff_eq.mpr hbits

/-- A word with the fixed bits of an instruction's row is the word of an instruction of that row, whose operands are the
word's fields (R85). -/
theorem exists_encode_of_fixedBits (j : Instr) {w : Word} (h : w &&& j.row.mask = j.row.pattern) :
    ∃ i, encode i = w ∧ i.row = j.row := by
  cases j with
  | cls => exact ⟨.cls, h.symm.trans (BitVec.and_allOnes (x := w)), rfl⟩
  | ret => exact ⟨.ret, h.symm.trans (BitVec.and_allOnes (x := w)), rfl⟩
  | jp nnn => exact ⟨.jp (nnnField w), append_nnn_of_mask h, rfl⟩
  | call nnn => exact ⟨.call (nnnField w), append_nnn_of_mask h, rfl⟩
  | seImm x nn => exact ⟨.seImm (xField w) (nnField w), append_xnn_of_mask h, rfl⟩
  | sneImm x nn => exact ⟨.sneImm (xField w) (nnField w), append_xnn_of_mask h, rfl⟩
  | seReg x y => exact ⟨.seReg (xField w) (yField w), append_xy_of_mask h, rfl⟩
  | ldImm x nn => exact ⟨.ldImm (xField w) (nnField w), append_xnn_of_mask h, rfl⟩
  | addImm x nn => exact ⟨.addImm (xField w) (nnField w), append_xnn_of_mask h, rfl⟩
  | ldReg x y => exact ⟨.ldReg (xField w) (yField w), append_xy_of_mask h, rfl⟩
  | orReg x y => exact ⟨.orReg (xField w) (yField w), append_xy_of_mask h, rfl⟩
  | andReg x y => exact ⟨.andReg (xField w) (yField w), append_xy_of_mask h, rfl⟩
  | xorReg x y => exact ⟨.xorReg (xField w) (yField w), append_xy_of_mask h, rfl⟩
  | addReg x y => exact ⟨.addReg (xField w) (yField w), append_xy_of_mask h, rfl⟩
  | subReg x y => exact ⟨.subReg (xField w) (yField w), append_xy_of_mask h, rfl⟩
  | shr x y => exact ⟨.shr (xField w) (yField w), append_xy_of_mask h, rfl⟩
  | subn x y => exact ⟨.subn (xField w) (yField w), append_xy_of_mask h, rfl⟩
  | shl x y => exact ⟨.shl (xField w) (yField w), append_xy_of_mask h, rfl⟩
  | sneReg x y => exact ⟨.sneReg (xField w) (yField w), append_xy_of_mask h, rfl⟩
  | ldI nnn => exact ⟨.ldI (nnnField w), append_nnn_of_mask h, rfl⟩
  | jpV0 nnn => exact ⟨.jpV0 (nnnField w), append_nnn_of_mask h, rfl⟩
  | rnd x nn => exact ⟨.rnd (xField w) (nnField w), append_xnn_of_mask h, rfl⟩
  | drw x y n => exact ⟨.drw (xField w) (yField w) (nField w), append_xyn_of_mask h, rfl⟩
  | skp x => exact ⟨.skp (xField w), append_x_of_mask h, rfl⟩
  | sknp x => exact ⟨.sknp (xField w), append_x_of_mask h, rfl⟩
  | ldVxDt x => exact ⟨.ldVxDt (xField w), append_x_of_mask h, rfl⟩
  | ldVxK x => exact ⟨.ldVxK (xField w), append_x_of_mask h, rfl⟩
  | ldDtVx x => exact ⟨.ldDtVx (xField w), append_x_of_mask h, rfl⟩
  | ldStVx x => exact ⟨.ldStVx (xField w), append_x_of_mask h, rfl⟩
  | addI x => exact ⟨.addI (xField w), append_x_of_mask h, rfl⟩
  | ldF x => exact ⟨.ldF (xField w), append_x_of_mask h, rfl⟩
  | ldB x => exact ⟨.ldB (xField w), append_x_of_mask h, rfl⟩
  | stRegs x => exact ⟨.stRegs (xField w), append_x_of_mask h, rfl⟩
  | ldRegs x => exact ⟨.ldRegs (xField w), append_x_of_mask h, rfl⟩

/-- A word that a row of the table accepts is the word of an instruction of that row. -/
theorem exists_encode_of_accepts {r : OpcodeRow} (hr : r ∈ opcodeRows) {w : Word} (h : r.accepts w = true) :
    ∃ i, encode i = w ∧ i.row = r := by
  obtain ⟨j, _, rfl⟩ := List.mem_map.mp hr
  exact exists_encode_of_fixedBits j (beq_iff_eq.mp h)

/-- Settles O37: a row accepts exactly the words of its instructions, and a word is the word of one instruction. -/
theorem rowsPartitionTheLegalWords : Obligations.RowsPartitionTheLegalWords := by
  have hrow : ∀ w i, decodeWord w = some i → i.row ∈ opcodeRows ∧ i.row.accepts w = true := by
    intro w i hi
    obtain rfl := encodeOfDecodeIsTheWord w i hi
    exact ⟨i.row_mem_opcodeRows, i.row_accepts_encode⟩
  refine ⟨rfl, fun w => ⟨fun hlegal => ?_, ?_⟩, hrow, ?_⟩
  · obtain ⟨i, hi⟩ := Option.isSome_iff_exists.mp hlegal
    exact ⟨i.row, hrow w i hi⟩
  · rintro ⟨r, hr, haccepts⟩
    obtain ⟨i, rfl, _⟩ := exists_encode_of_accepts hr haccepts
    rw [decodeWord_encode]
    rfl
  · intro r hr r' hr' w h h'
    obtain ⟨i, hi, rfl⟩ := exists_encode_of_accepts hr h
    obtain ⟨i', hi', rfl⟩ := exists_encode_of_accepts hr' h'
    have hsame : i = i' := by
      rw [← Option.some_inj, ← decodeWord_encode i, ← decodeWord_encode i', hi, hi']
    rw [hsame]

end Sys2Proof

/-! ## Control transfer: call, the register skips and the jump with an offset (spec/41_control_flow.md) -/

namespace Sys2Proof.Machine

variable {s t : State}

/-! ### Call -/

/-- `push` with fewer than 16 valid entries writes slot sp and raises sp (R29). -/
theorem State.push_eq_ok (w : Word) (hsp : s.sp.val < 16) :
    s.push w = .ok { s with stack := s.stack.set s.sp.val w hsp, sp := ⟨s.sp.val + 1, by omega⟩ } := by
  rcases s.push_cases w with ⟨_, hok⟩ | ⟨hfull, _⟩
  · exact hok
  · omega

/-- `push` with 16 valid entries fails (R203). -/
theorem State.push_eq_stackOverflow (w : Word) (hsp : s.sp.val = 16) : s.push w = .error .stackOverflow := by
  rcases s.push_cases w with ⟨hroom, _⟩ | ⟨_, herr⟩
  · omega
  · exact herr

/-- A push changes the stack and its depth only (R29). -/
theorem State.push_onlyChanges {w : Word} (h : s.push w = .ok t) : OnlyChanges [.sp, .stack] s t := by
  rcases s.push_cases w with ⟨_, hok⟩ | ⟨_, herr⟩
  · cases hok.symm.trans h
    intro p hp
    cases p <;> simp_all [Keeps, State.getV]
  · cases herr.symm.trans h

/-- `2nnn` pushes pc and jumps, or raises (R112). -/
theorem exec_call (nnn : BitVec 12) (s : State) :
    exec (.call nnn) s = .next (s.attempt (s.push s.pc) fun t => t.setPc (addressOf nnn)) := rfl

/-- Settles O3: below 16 entries the pushed slot is the one a return pops next; with 16 the error is raised in the state
before the push. -/
theorem callPushesTheReturnAddressOrOverflows : Obligations.CallPushesTheReturnAddressOrOverflows := by
  refine fun nnn s => ⟨fun hsp => ?_, fun hsp => ?_⟩
  · have hpush := State.push_eq_ok s.pc hsp
    have hcall := exec_call nnn s
    rw [hpush, State.attempt_ok] at hcall
    refine ⟨_, hcall, ?_, rfl, toNat_addressOf nnn, fun k hk hne => ?_, ?_, _, exec_ret_eq_setPc hsp rfl, ?_, rfl⟩
    · simp
    · simp [Vector.getElem_set_ne, Ne.symm hne]
    · exact ((State.push_onlyChanges hpush).mono (by simp)).trans ((State.setPc_onlyChanges _ _).mono (by simp))
    · simp
  · refine ⟨_, ?_, s.raise_haltsWith .stackOverflow⟩
    rw [exec_call, State.push_eq_stackOverflow _ hsp, State.attempt_error]

/-! ### Skips on two registers -/

/-- `5xy0` skips on equality (R115). -/
theorem exec_seReg (x y : Reg) (s : State) :
    exec (.seReg x y) s = .next (s.skipIf (s.getV x == s.getV y)) := rfl

/-- `9xy0` skips on difference (R116). -/
theorem exec_sneReg (x y : Reg) (s : State) :
    exec (.sneReg x y) s = .next (s.skipIf (s.getV x != s.getV y)) := rfl

/-- Settles O5: a skip on equality changes pc only. -/
theorem skipsIfRegistersAreEqual : Obligations.SkipsIfRegistersAreEqual := by
  intro x y s
  exact ⟨_, exec_seReg x y s, s.skipIf_beq_pc _ _, s.skipIf_onlyChanges _⟩

/-- Settles O6: a skip on difference changes pc only. -/
theorem skipsIfRegistersDiffer : Obligations.SkipsIfRegistersDiffer := by
  intro x y s
  exact ⟨_, exec_sneReg x y s, s.skipIf_bne_pc _ _, s.skipIf_onlyChanges _⟩

/-! ### Jump with an offset -/

/-- `Bnnn` jumps to nnn + V0 (R118). -/
theorem exec_jpV0 (nnn : BitVec 12) (s : State) :
    exec (.jpV0 nnn) s = .next (s.setPc (addressOf nnn + s.offsetV 0)) := rfl

/-- A 12-bit address and a byte add up below 65536, so the 16-bit sum is exact (R118). -/
theorem State.toNat_addressOf_add_offsetV (s : State) (nnn : BitVec 12) (r : Reg) :
    (addressOf nnn + s.offsetV r).toNat = nnn.toNat + (s.getV r).toNat := by
  rw [BitVec.toNat_add, toNat_addressOf, State.toNat_offsetV]
  omega

/-- Settles O7: the new pc is the exact sum, and a fetch fails exactly above 0xFFE. -/
theorem jumpWithOffsetAddsV0 : Obligations.JumpWithOffsetAddsV0 := by
  intro nnn s
  have hpc := s.toNat_addressOf_add_offsetV nnn 0
  refine ⟨_, exec_jpV0 nnn s, hpc, s.setPc_onlyChanges _, ?_⟩
  rw [State.fetch_fails_iff, State.setPc_pc, hpc]

end Sys2Proof.Machine

/-! ## Register load and ALU: the subtractions, the shifts and the forms with x = y (spec/42_load_alu.md) -/

namespace Sys2Proof.Machine

/-! ### Results and flags as numbers -/

/-- The exact form of a byte difference: modulo 256 (R136). -/
theorem toNat_sub_byte (a b : Byte) : (a - b).toNat = (a.toNat + 256 - b.toNat) % 256 := by
  rw [BitVec.toNat_sub]
  omega

/-- A byte shifted right by one is its half (R133). -/
theorem toNat_shiftRight_one (a : Byte) : (a >>> 1).toNat = a.toNat / 2 := by
  rw [BitVec.toNat_ushiftRight, Nat.shiftRight_eq_div_pow, Nat.pow_one]

/-- A byte shifted left by one is its double modulo 256 (R135). -/
theorem toNat_shiftLeft_one (a : Byte) : (a <<< 1).toNat = 2 * a.toNat % 256 := by
  rw [BitVec.toNat_shiftLeft, Nat.shiftLeft_eq, Nat.pow_one, Nat.mul_comm]

/-- No borrow as the byte written to VF (R132, R134). -/
theorem flagByte_noBorrow (a b : Byte) : flagByte (noBorrow a b) = if b.toNat ≤ a.toNat then 1 else 0 :=
  flagByte_decide _

/-- A flag as a number. -/
theorem toNat_flagByte (c : Bool) : (flagByte c).toNat = c.toNat := by cases c <;> rfl

/-- The bit `8xy6` shifts out is the remainder of its half (R133). -/
theorem toNat_flagByte_shiftedOutRight (a : Byte) : (flagByte (shiftedOutRight a)).toNat = a.toNat % 2 := by
  rw [toNat_flagByte, shiftedOutRight, BitVec.getLsbD, Nat.toNat_testBit, Nat.pow_zero, Nat.div_one]

/-- The bit `8xyE` shifts out says whether the byte is at least 128 (R135). -/
theorem toNat_flagByte_shiftedOutLeft (a : Byte) : (flagByte (shiftedOutLeft a)).toNat = a.toNat / 128 := by
  rw [toNat_flagByte, shiftedOutLeft, BitVec.getLsbD, Nat.toNat_testBit]
  omega

/-! ### Subtractions and shifts -/

/-- `8xy5` writes the difference, then no borrow (R132). -/
theorem exec_subReg (x y : Reg) (s : State) : exec (.subReg x y) s =
    .next (s.setResultAndFlag x (s.getV x - s.getV y) (noBorrow (s.getV x) (s.getV y))) := rfl

/-- `8xy7` writes the difference of the exchanged operands, then no borrow (R134). -/
theorem exec_subn (x y : Reg) (s : State) : exec (.subn x y) s =
    .next (s.setResultAndFlag x (s.getV y - s.getV x) (noBorrow (s.getV y) (s.getV x))) := rfl

/-- `8xy6` writes the half of V[x], then the bit shifted out; y plays no part (R133, decision D14). -/
theorem exec_shr (x y : Reg) (s : State) : exec (.shr x y) s =
    .next (s.setResultAndFlag x (s.getV x >>> 1) (shiftedOutRight (s.getV x))) := rfl

/-- `8xyE` writes the double of V[x], then the bit shifted out; y plays no part (R135, decision D14). -/
theorem exec_shl (x y : Reg) (s : State) : exec (.shl x y) s =
    .next (s.setResultAndFlag x (s.getV x <<< 1) (shiftedOutLeft (s.getV x))) := rfl

/-- Settles O13: the difference is written to V[x] and then no borrow of the old bytes to VF. -/
theorem subtractSetsNoBorrow : Obligations.SubtractSetsNoBorrow := by
  intro x y s
  refine ⟨_, exec_subReg x y s, fun hx => ?_, ?_, s.setResultAndFlag_onlyWrites x _ _,
    s.setResultAndFlag_onlyChanges x _ _⟩
  · rw [State.getV_setResultAndFlag_of_ne hx, toNat_sub_byte]
  · rw [State.getV_setResultAndFlag_vf, flagByte_noBorrow]

/-- Settles O15: as O13 with the operands exchanged. -/
theorem reverseSubtractSetsNoBorrow : Obligations.ReverseSubtractSetsNoBorrow := by
  intro x y s
  refine ⟨_, exec_subn x y s, fun hx => ?_, ?_, s.setResultAndFlag_onlyWrites x _ _,
    s.setResultAndFlag_onlyChanges x _ _⟩
  · rw [State.getV_setResultAndFlag_of_ne hx, toNat_sub_byte]
  · rw [State.getV_setResultAndFlag_vf, flagByte_noBorrow]

/-- Settles O14: V[x] is halved in place, and the remainder of the old byte goes to VF. -/
theorem shiftRightPutsBitZeroInVF : Obligations.ShiftRightPutsBitZeroInVF := by
  intro x y s
  refine ⟨_, exec_shr x y s, fun hx => ?_, ?_, s.setResultAndFlag_onlyWrites x _ _,
    s.setResultAndFlag_onlyChanges x _ _⟩
  · rw [State.getV_setResultAndFlag_of_ne hx, toNat_shiftRight_one]
  · rw [State.getV_setResultAndFlag_vf, toNat_flagByte_shiftedOutRight]

/-- Settles O16: V[x] is doubled in place, and bit 7 of the old byte goes to VF. -/
theorem shiftLeftPutsBitSevenInVF : Obligations.ShiftLeftPutsBitSevenInVF := by
  intro x y s
  refine ⟨_, exec_shl x y s, fun hx => ?_, ?_, s.setResultAndFlag_onlyWrites x _ _,
    s.setResultAndFlag_onlyChanges x _ _⟩
  · rw [State.getV_setResultAndFlag_of_ne hx, toNat_shiftLeft_one]
  · rw [State.getV_setResultAndFlag_vf, toNat_flagByte_shiftedOutLeft]

/-! ### The forms with x = y -/

/-- Writing back the byte that a register holds changes nothing at all. -/
theorem State.setV_getV_self (s : State) (x : Reg) : s.setV x (s.getV x) = s := by
  simp [State.setV, State.getV]

/-- A byte added to itself carries exactly where its bit 7 is 1 (R131). -/
theorem carryOut_self (a : Byte) : carryOut a a = shiftedOutLeft a := by
  rw [carryOut, shiftedOutLeft, BitVec.getLsbD, Nat.testBit_eq_decide_div_mod_eq, decide_eq_decide]
  omega

/-- A byte subtracted from itself does not borrow (R132). -/
theorem noBorrow_self (a : Byte) : noBorrow a a = true := decide_eq_true (Nat.le_refl _)

/-- Settles O17: each form is its instruction's rule at x = y, where the operation on two equal bytes is idempotent (copy,
OR, AND), zero (XOR and the subtractions) or a doubling; the rules of the shifts do not name y. -/
theorem sameSourceAndDestination : Obligations.SameSourceAndDestination := by
  intro x s
  have hself : OnlyChanges [] s (s.setV x (s.getV x)) := by
    rw [State.setV_getV_self]
    exact OnlyChanges.refl [] s
  refine ⟨⟨_, exec_ldReg x x s, hself⟩, ⟨_, exec_orReg x x s, ?_⟩, ⟨_, exec_andReg x x s, ?_⟩,
    ⟨_, exec_xorReg x x s, ?_⟩, ⟨_, exec_addReg x x s, fun hx => ?_, ?_⟩, ⟨_, exec_subReg x x s, fun hx => ?_, ?_⟩,
    ⟨_, exec_subn x x s, fun hx => ?_, ?_⟩, fun y => ⟨?_, ?_⟩⟩
  · rwa [BitVec.or_self]
  · rwa [BitVec.and_self]
  · rw [State.getV_setV_self, BitVec.xor_self]
    rfl
  · rw [State.getV_setResultAndFlag_of_ne hx, toNat_add_byte, Nat.two_mul]
  · rw [State.getV_setResultAndFlag_vf, carryOut_self, toNat_flagByte_shiftedOutLeft]
  · rw [State.getV_setResultAndFlag_of_ne hx, BitVec.sub_self]
    rfl
  · rw [State.getV_setResultAndFlag_vf, noBorrow_self]
    rfl
  · rw [State.getV_setResultAndFlag_of_ne hx, BitVec.sub_self]
    rfl
  · rw [State.getV_setResultAndFlag_vf, noBorrow_self]
    rfl
  · rw [exec_shr, exec_shr]
  · rw [exec_shl, exec_shl]

end Sys2Proof.Machine

/-! ## The index register and the block transfers (spec/43_index_memory.md, spec/20_memory.md) -/

namespace Sys2Proof.Machine

variable {s t : State}

/-! ### I from a register -/

/-- `Fx1E` adds V[x] to I (R146). -/
theorem exec_addI (x : Reg) (s : State) : exec (.addI x) s = .next (s.setI (s.i + s.offsetV x)) := rfl

/-- `Fx29` points I at the glyph of a digit (R147). -/
theorem exec_ldF (x : Reg) (s : State) : exec (.ldF x) s = .next (s.setI (glyphAddress (s.lowNibble x))) := rfl

/-- Settles O19: the instruction is one write of I, of a 16-bit sum. -/
theorem addToIndexWrapsAtSixteenBits : Obligations.AddToIndexWrapsAtSixteenBits := by
  intro x s
  refine ⟨_, exec_addI x s, ?_, s.setI_onlyChanges _⟩
  rw [State.setI_i, BitVec.toNat_add, State.toNat_offsetV]

/-- Settles O20: the instruction is one write of I, of the low nibble's glyph address. -/
theorem glyphAddressIsFiveTimesTheDigit : Obligations.GlyphAddressIsFiveTimesTheDigit := by
  intro x s
  refine ⟨_, exec_ldF x s, ?_, s.setI_onlyChanges _⟩
  rw [State.setI_i, toNat_glyphAddress, State.toNat_lowNibble]

/-! ### Blocks inside and outside memory -/

/-- A block that lies in memory is read (R55). -/
theorem State.readBlock_eq_ok {base n : Nat} (h : n = 0 ∨ base + n ≤ 4096) :
    s.readBlock base n = .ok (s.mem.readBytes base n) := by
  rcases s.readBlock_cases base n with ⟨_, hok⟩ | ⟨hne, habove, _⟩
  · exact hok
  · omega

/-- A block that does not is not (R58). -/
theorem State.readBlock_eq_outOfBounds {base n : Nat} (hne : n ≠ 0) (h : 4096 < base + n) :
    s.readBlock base n = .error (.outOfBoundsAccess (if 0xFFF < base then base else 0x1000)) := by
  rcases s.readBlock_cases base n with ⟨hin, _⟩ | ⟨_, _, herr⟩
  · omega
  · exact herr

/-- A block that lies in memory is stored (R55). -/
theorem State.writeBlock_eq_ok {base : Nat} {bs : List Byte} (h : base + bs.length ≤ 4096) :
    s.writeBlock base bs = .ok { s with mem := s.mem.writeBytes base bs } := by
  rcases s.writeBlock_cases base bs with ⟨_, hok⟩ | ⟨_, habove, _⟩
  · exact hok
  · omega

/-- A block that does not is not (R58). -/
theorem State.writeBlock_eq_outOfBounds {base : Nat} {bs : List Byte} (hne : bs ≠ []) (h : 4096 < base + bs.length) :
    s.writeBlock base bs = .error (.outOfBoundsAccess (if 0xFFF < base then base else 0x1000)) := by
  rcases s.writeBlock_cases base bs with ⟨hin | hin, _⟩ | ⟨_, _, herr⟩
  · exact absurd hin hne
  · omega
  · exact herr

/-- A block store changes memory only (R53). -/
theorem State.withMem_onlyChanges (s : State) (m : Memory) : OnlyChanges [.mem] s { s with mem := m } := by
  intro p hp
  cases p <;> simp_all [Keeps, State.getV]

/-- A byte of a stored block reads back (R53, R55). -/
theorem Memory.readByte_writeBytes_inside {m : Memory} (hm : m.wf) (a : Nat) (bs : List Byte) {k : Nat}
    (hk : k < bs.length) : (m.writeBytes a bs).readByte (a + k) = bs[k] := by
  rw [Memory.readByte_writeBytes m hm.1, dif_pos (by omega)]
  simp

/-- A byte outside a stored block is as before (R53, R55). -/
theorem Memory.readByte_writeBytes_outside {m : Memory} (hm : m.wf) {a b : Nat} {bs : List Byte}
    (h : b < a ∨ a + bs.length ≤ b) : (m.writeBytes a bs).readByte b = m.readByte b := by
  rw [Memory.readByte_writeBytes m hm.1, dif_neg (by omega)]

/-- A stored block reads back as it was. -/
theorem Memory.readBytes_writeBytes {m : Memory} (hm : m.wf) (a : Nat) (bs : List Byte) :
    (m.writeBytes a bs).readBytes a bs.length = bs := by
  apply List.ext_getElem (Memory.length_readBytes _ _ _)
  intro k _ hk
  rw [Memory.getElem_readBytes, Memory.readByte_writeBytes_inside hm a bs hk]

/-- Settles O25: one byte is a block of one; a block that was stored is read back at the same bounds. -/
theorem memoryPrimitives : Obligations.MemoryPrimitives := by
  intro s hm
  refine ⟨fun a ha => ?_, fun a ha => ?_, fun a b ha => ?_, fun a b ha => ?_, fun a bs t ht => ?_⟩
  · rw [State.readBlock_eq_ok (.inr (by omega))]
    rfl
  · rw [State.readBlock_eq_outOfBounds (by omega) (by omega), if_pos ha]
  · refine ⟨_, State.writeBlock_eq_ok (bs := [b]) ?_, ?_, fun c hc => ?_, s.withMem_onlyChanges _⟩
    · rw [List.length_singleton]
      omega
    · exact Memory.readByte_writeBytes_inside hm a [b] (k := 0) (by simp)
    · exact Memory.readByte_writeBytes_outside hm (by rw [List.length_singleton]; omega)
  · rw [State.writeBlock_eq_outOfBounds (by simp) (by rw [List.length_singleton]; omega), if_pos ha]
  · rcases s.writeBlock_cases a bs with ⟨hin, hok⟩ | ⟨_, _, herr⟩
    · cases hok.symm.trans ht
      rw [State.readBlock_eq_ok (by simpa using hin), Memory.readBytes_writeBytes hm]
    · cases herr.symm.trans ht

/-! ### Decimal digits -/

/-- `Fx33` stores the digits, or raises (R148). -/
theorem exec_ldB (x : Reg) (s : State) : exec (.ldB x) s =
    .next (s.attempt (s.writeBlock s.i.toNat (decimalDigits (s.getV x))) fun t => t) := rfl

/-- `Fx33` with its three bytes in memory. -/
theorem exec_ldB_eq_store (x : Reg) (h : s.i.toNat + 2 ≤ 0xFFF) : exec (.ldB x) s =
    .next { s with mem := s.mem.writeBytes s.i.toNat (decimalDigits (s.getV x)) } := by
  rw [exec_ldB, State.writeBlock_eq_ok (by rw [length_decimalDigits]; omega), State.attempt_ok]

/-- Settles O21: the three bytes of the stored block are the digits; where the block does not fit, nothing is stored. -/
theorem decimalDigitsAreStoredAtI : Obligations.DecimalDigitsAreStoredAtI := by
  refine fun x s hm => ⟨fun hin => ?_, fun hout => ?_⟩
  · have hdigit (k : Nat) (hk : k < 3) :=
      Memory.readByte_writeBytes_inside hm s.i.toNat (decimalDigits (s.getV x)) (k := k) hk
    refine ⟨_, exec_ldB_eq_store x hin, ?_, ?_, ?_, fun a ha => ?_, s.withMem_onlyChanges _⟩
    · exact (congrArg BitVec.toNat (hdigit 0 (by omega))).trans BitVec.toNat_udiv
    · exact (congrArg BitVec.toNat (hdigit 1 (by omega))).trans
        (BitVec.toNat_umod.trans (congrArg (· % 10) BitVec.toNat_udiv))
    · exact (congrArg BitVec.toNat (hdigit 2 (by omega))).trans BitVec.toNat_umod
    · exact Memory.readByte_writeBytes_outside hm (by rw [length_decimalDigits]; omega)
  · refine ⟨_, ?_, s.raise_haltsWith _⟩
    rw [exec_ldB, State.writeBlock_eq_outOfBounds (by simp [decimalDigits]) (by rw [length_decimalDigits]; omega),
      State.attempt_error]

/-! ### Storing registers -/

/-- `Fx55` stores V0 to Vx, or raises (R149). -/
theorem exec_stRegs (x : Reg) (s : State) : exec (.stRegs x) s =
    .next (s.attempt (s.writeBlock s.i.toNat (s.regsUpTo x)) fun t => t.setI (s.indexAfterBlock x)) := rfl

/-- `Fx55` with its block in memory: I is written back as it was (decision D22). -/
theorem exec_stRegs_eq_store (x : Reg) (h : s.i.toNat + x.toNat ≤ 0xFFF) : exec (.stRegs x) s =
    .next { s with mem := s.mem.writeBytes s.i.toNat (s.regsUpTo x) } := by
  rw [exec_stRegs, State.writeBlock_eq_ok (by rw [State.length_regsUpTo]; omega), State.attempt_ok]
  rfl

/-- Register r ≤ x is byte r of the block that `Fx55` stores (R149). -/
theorem State.readByte_store_regsUpTo (hm : s.mem.wf) {x r : Reg} (hr : r.toNat ≤ x.toNat) :
    (s.mem.writeBytes s.i.toNat (s.regsUpTo x)).readByte (s.i.toNat + r.toNat) = s.getV r := by
  have hlt : r.toNat < (s.regsUpTo x).length := by
    rw [State.length_regsUpTo]
    omega
  rw [Memory.readByte_writeBytes_inside hm _ _ hlt, State.getElem_regsUpTo, BitVec.ofNat_toNat, BitVec.setWidth_eq]

/-- Settles O22: byte r of the stored block is V[r]; where the block does not fit, nothing is stored. -/
theorem registerBlockIsStoredAtI : Obligations.RegisterBlockIsStoredAtI := by
  refine fun x s hm => ⟨fun hin => ?_, fun hout => ?_⟩
  · refine ⟨_, exec_stRegs_eq_store x hin, fun r hr => State.readByte_store_regsUpTo hm hr, fun a ha => ?_,
      s.withMem_onlyChanges _⟩
    exact Memory.readByte_writeBytes_outside hm (by rw [State.length_regsUpTo]; omega)
  · have hne : s.regsUpTo x ≠ [] := List.ne_nil_of_length_eq_add_one (s.length_regsUpTo x)
    refine ⟨_, ?_, s.raise_haltsWith _⟩
    rw [exec_stRegs, State.writeBlock_eq_outOfBounds hne (by rw [State.length_regsUpTo]; omega), State.attempt_error]

/-- Settles O24: the two bytes at p are V[r] and V[r + 1], and p is at most 0xFFE. -/
theorem storedBytesAreFetched : Obligations.StoredBytesAreFetched := by
  intro x r s p hm hin hr hp
  have hsucc : (r + 1).toNat = r.toNat + 1 := by
    have hone : (1 : Reg).toNat = 1 := rfl
    have hx := x.isLt
    rw [BitVec.toNat_add]
    omega
  have hfirst := State.readByte_store_regsUpTo hm (s := s) (x := x) (r := r) (by omega)
  have hsecond := State.readByte_store_regsUpTo hm (s := s) (x := x) (r := r + 1) (by omega)
  refine ⟨_, exec_stRegs_eq_store x hin, ?_⟩
  rw [State.fetch_eq_wordAt (by rw [State.setPc_pc]; omega), State.setPc_mem, State.setPc_pc, wordAt, hp, hfirst,
    Nat.add_assoc, ← hsucc, hsecond]

/-! ### Loading registers -/

/-- `Fx65` loads V0 to Vx, or raises (R150). -/
theorem exec_ldRegs (x : Reg) (s : State) : exec (.ldRegs x) s =
    .next (s.attempt (s.readBlock s.i.toNat (x.toNat + 1)) fun bs => (s.setVs 0 bs).setI (s.indexAfterBlock x)) := rfl

/-- Loading registers changes registers only (R150). -/
theorem State.setVs_onlyChanges (s : State) (k : Nat) (bs : List Byte) : OnlyChanges [.v] s (s.setVs k bs) := by
  intro p hp
  cases p <;> simp_all [Keeps]

/-- `Fx65` with its block in memory: I is written back as it was (decision D22). -/
theorem exec_ldRegs_eq_load (x : Reg) (h : s.i.toNat + x.toNat ≤ 0xFFF) : exec (.ldRegs x) s =
    .next (s.setVs 0 (s.mem.readBytes s.i.toNat (x.toNat + 1))) := by
  rw [exec_ldRegs, State.readBlock_eq_ok (.inr (by omega)), State.attempt_ok, State.indexAfterBlock_eq]
  congr 1
  rw [State.setVs_eq]
  rfl

/-- Settles O23: register r ≤ x gets byte r of the block; where the block does not fit, nothing is loaded. -/
theorem registerBlockIsLoadedFromI : Obligations.RegisterBlockIsLoadedFromI := by
  refine fun x s => ⟨fun hin => ?_, fun hout => ?_⟩
  · have hlen := Memory.length_readBytes s.mem s.i.toNat (x.toNat + 1)
    have hload := s.getV_setVs 0 (s.mem.readBytes s.i.toNat (x.toNat + 1)) (by omega)
    refine ⟨_, exec_ldRegs_eq_load x hin, fun r hr => ?_, fun r hr => ?_, s.setVs_onlyChanges _ _⟩
    · rw [hload, dif_pos (by omega), Memory.getElem_readBytes, Nat.sub_zero]
    · rw [hload, dif_neg (by omega)]
  · refine ⟨_, ?_, s.raise_haltsWith _⟩
    rw [exec_ldRegs, State.readBlock_eq_outOfBounds (by omega) (by omega), State.attempt_error]

end Sys2Proof.Machine

/-! ## Drawing and the snapshot (spec/44_display.md) -/

namespace Sys2Proof.Machine

variable {s t : State}

/-! ### Draw -/

/-- `Dxyn` reads its rows and draws them, or raises (R161). -/
theorem exec_drw (x y : Reg) (n : BitVec 4) (s : State) : exec (.drw x y n) s =
    .next (s.attempt (s.readBlock s.i.toNat n.toNat) fun rows =>
      s.putDrawing (drawSprite s.fb (s.spriteColumn x) (s.spriteRow y) rows)) := rfl

/-- What the draw unit answers for `Dxyn`, where the sprite lies in memory (R161, R162). -/
def State.drawing (s : State) (x y : Reg) (n : BitVec 4) : Drawing :=
  drawSprite s.fb (s.spriteColumn x) (s.spriteRow y) (s.mem.readBytes s.i.toNat n.toNat)

/-- `Dxyn` with its sprite in memory, or with no row to read. -/
theorem exec_drw_eq_putDrawing (x y : Reg) {n : BitVec 4} (h : n = 0 ∨ s.i.toNat + n.toNat - 1 ≤ 0xFFF) :
    exec (.drw x y n) s = .next (s.putDrawing (s.drawing x y n)) := by
  have hin : n.toNat = 0 ∨ s.i.toNat + n.toNat ≤ 4096 := by
    rcases h with rfl | h
    · exact .inl rfl
    · omega
  rw [exec_drw, State.readBlock_eq_ok hin, State.attempt_ok]
  rfl

/-- The footprint of the rows that `Dxyn` reads is the sprite of the statements (R162, R164). -/
theorem footprint_readBytes_iff (s : State) (x y : Reg) (n : BitVec 4) (px : BitVec 6) (py : BitVec 5) :
    footprint (s.spriteColumn x) (s.spriteRow y) (s.mem.readBytes s.i.toNat n.toNat) px py ↔
      SpriteCovers s x y n px py := by
  simp only [footprint, SpriteCovers, State.toNat_spriteColumn, State.toNat_spriteRow, Nat.mod_add_mod,
    Memory.getElem_readBytes, Memory.length_readBytes]
  constructor
  · rintro ⟨r, b, hr, hb, hbit, hx, hy⟩
    exact ⟨r, b, hr, hb, hx, hy, hbit⟩
  · rintro ⟨r, b, hr, hb, hx, hy, hbit⟩
    exact ⟨r, b, hr, hb, hbit, hx, hy⟩

/-- The drawing of `Dxyn` toggles exactly the pixels that its sprite covers (R162, R167 (c)). -/
theorem State.toggles_drawing (s : State) (x y : Reg) (n : BitVec 4) :
    Drawing.Toggles (SpriteCovers s x y n) { fb := s.fb, collision := false } (s.drawing x y n) := by
  have hcovers : footprint (s.spriteColumn x) (s.spriteRow y) (s.mem.readBytes s.i.toNat n.toNat) =
      SpriteCovers s x y n :=
    funext fun px => funext fun py => propext (footprint_readBytes_iff s x y n px py)
  rw [← hcovers]
  exact toggles_drawSprite _ _ _ _ (by rw [Memory.length_readBytes]; omega)

/-- A drawing collides exactly where the sprite covers a pixel that was on (R162). -/
theorem State.drawing_collision_iff (s : State) (x y : Reg) (n : BitVec 4) : (s.drawing x y n).collision = true ↔
    ∃ px py, s.fb.pixel px py = true ∧ SpriteCovers s x y n px py := by
  simp only [(s.toggles_drawing x y n).collision, Bool.false_eq_true, false_or, and_comm]

/-- Taking over a drawing writes VF with the collision (R166). -/
theorem State.getV_putDrawing (s : State) (d : Drawing) (r : Reg) :
    (s.putDrawing d).getV r = if r = vf then flagByte d.collision else s.getV r :=
  State.getV_setFlag _ r d.collision

/-- Taking over a drawing changes the display and the registers only (R161). -/
theorem State.putDrawing_onlyChanges (s : State) (d : Drawing) : OnlyChanges [.fb, .v] s (s.putDrawing d) :=
  ((s.withFb_onlyChanges d.fb).mono (by simp)).trans ((State.setV_onlyChanges _ vf _).mono (by simp))

/-- Taking over a drawing writes no register but VF (R166). -/
theorem State.putDrawing_onlyWrites (s : State) (d : Drawing) : OnlyWrites [vf] s (s.putDrawing d) := by
  intro r hr
  rw [State.getV_putDrawing, if_neg (by simpa using hr)]

/-- Settles O27: the drawing toggles the sprite's pixels and its collision goes to VF; where the sprite does not lie in
memory, nothing is drawn. -/
theorem drawTogglesTheSpritesPixels : Obligations.DrawTogglesTheSpritesPixels := by
  refine fun x y n s => ⟨fun hin => ?_, fun hn hout => ?_⟩
  · refine ⟨_, exec_drw_eq_putDrawing x y hin, (s.toggles_drawing x y n).pixel, fun hon => ?_, fun hoff => ?_,
      s.putDrawing_onlyWrites _, s.putDrawing_onlyChanges _⟩
    · rw [State.getV_putDrawing, if_pos rfl, (s.drawing_collision_iff x y n).mpr hon]
      rfl
    · rw [State.getV_putDrawing, if_pos rfl,
        Bool.eq_false_iff.mpr fun hcollision => hoff ((s.drawing_collision_iff x y n).mp hcollision)]
      rfl
  · have hne : n.toNat ≠ 0 := fun hzero => hn (BitVec.eq_of_toNat_eq hzero)
    refine ⟨_, ?_, s.raise_haltsWith _⟩
    rw [exec_drw, State.readBlock_eq_outOfBounds hne (by omega), State.attempt_error]

/-! ### Laws of drawing -/

/-- Settles O28: by O27, since no pixel is on that could be turned off. -/
theorem drawOnClearScreenNeverCollides : Obligations.DrawOnClearScreenNeverCollides := by
  intro x y n s hclear hin
  obtain ⟨t, hexec, hpixel, _, hoff, _⟩ := (drawTogglesTheSpritesPixels x y n s).1 hin
  refine ⟨t, hexec, hoff ?_, fun px py => ?_⟩
  · rintro ⟨px, py, hon, _⟩
    rw [hclear] at hon
    cases hon
  · simpa [hclear] using hpixel px py

/-- What a sprite covers depends on memory, I and the two position registers alone. -/
theorem spriteCovers_congr {x y : Reg} (n : BitVec 4) (hmem : Keeps .mem s t) (hi : Keeps .i s t)
    (hx : t.getV x = s.getV x) (hy : t.getV y = s.getV y) : SpriteCovers t x y n = SpriteCovers s x y n := by
  have hmem : ∀ a, t.mem.readByte a = s.mem.readByte a := hmem
  have hi : t.i = s.i := hi
  funext px py
  simp only [SpriteCovers, hmem, hi, hx, hy]

/-- A sprite covers some pixel exactly if some bit among its rows is 1 (R162). -/
theorem exists_spriteCovers_iff (s : State) (x y : Reg) (n : BitVec 4) : (∃ px py, SpriteCovers s x y n px py) ↔
    ∃ r b, r < n.toNat ∧ b < 8 ∧ (s.mem.readByte (s.i.toNat + r)).getLsbD b = true := by
  constructor
  · rintro ⟨px, py, r, b, hr, hb, _, _, hbit⟩
    exact ⟨r, 7 - b, hr, by omega, hbit⟩
  · rintro ⟨r, b, hr, hb, hbit⟩
    refine ⟨BitVec.ofNat 6 ((s.getV x).toNat + (7 - b)), BitVec.ofNat 5 ((s.getV y).toNat + r), r, 7 - b, hr, by omega,
      BitVec.toNat_ofNat _ _, BitVec.toNat_ofNat _ _, ?_⟩
    rwa [show 7 - (7 - b) = b by omega]

/-- A toggled pixel that is covered is on exactly where it was off. -/
theorem toggled_and_covered_iff (on covered : Prop) : ¬(on ↔ covered) ∧ covered ↔ covered ∧ ¬on := by tauto

/-- A pixel toggled twice is as it was. -/
theorem toggled_twice_iff (on covered : Prop) : ¬(¬(on ↔ covered) ↔ covered) ↔ on := by tauto

/-- Settles O29: by O27 twice over one set of covered pixels: toggling them twice restores the screen, and the second
draw collides where the first left a covered pixel on, which is where it was off before. -/
theorem drawingTwiceRestoresTheScreen : Obligations.DrawingTwiceRestoresTheScreen := by
  intro x y n s t t' hin hexec hfb hmem hi hx hy
  have hcovers := spriteCovers_congr n hmem hi hx hy
  have hfb : ∀ px py, t'.fb.pixel px py = t.fb.pixel px py := hfb
  have hin' : n = 0 ∨ t'.i.toNat + n.toNat - 1 ≤ 0xFFF := by rwa [show t'.i = s.i from hi]
  obtain ⟨_, hfirst, hpixel, _⟩ := (drawTogglesTheSpritesPixels x y n s).1 hin
  obtain rfl := Host.Outcome.next.inj (hexec.symm.trans hfirst)
  obtain ⟨u, hsecond, hpixel', hon, hoff, _⟩ := (drawTogglesTheSpritesPixels x y n t').1 hin'
  simp only [hfb, hcovers] at hpixel' hon hoff
  have hvf : u.getV vf = 1 ↔ ∃ px py, t.fb.pixel px py = true ∧ SpriteCovers s x y n px py := by
    refine ⟨fun hone => ?_, hon⟩
    by_contra hnone
    rw [hoff hnone] at hone
    cases hone
  have hleftOn (px : BitVec 6) (py : BitVec 5) : (t.fb.pixel px py = true ∧ SpriteCovers s x y n px py) ↔
      (SpriteCovers s x y n px py ∧ s.fb.pixel px py = false) := by
    rw [hpixel, ← Bool.not_eq_true, toggled_and_covered_iff]
  have hcollides : u.getV vf = 1 ↔ ∃ px py, SpriteCovers s x y n px py ∧ s.fb.pixel px py = false := by
    simp only [hvf, hleftOn]
  refine ⟨u, hsecond, fun px py => ?_, hcollides, fun hclear => ?_⟩
  · rw [Bool.eq_iff_iff, hpixel', hpixel, toggled_twice_iff]
  · rw [hcollides, ← exists_spriteCovers_iff s x y n]
    simp only [hclear, and_true]

/-! ### The snapshot -/

/-- Bit 64 * y + x of packed rows is bit x of row y (R165). -/
theorem testBit_packRows (rows : List (BitVec 64)) {x y : Nat} (hx : x < 64) (hy : y < rows.length) :
    (packRows rows).testBit (64 * y + x) = rows[y].getLsbD x := by
  induction rows generalizing y with
  | nil => simp at hy
  | cons row rows ih =>
    rw [packRows, Nat.add_comm, Nat.testBit_two_pow_mul_add _ row.isLt]
    cases y with
    | zero =>
      rw [if_pos (by omega), Nat.mul_zero, Nat.zero_add]
      rfl
    | succ y =>
      rw [if_neg (by omega), show 64 * (y + 1) + x - 64 = 64 * y + x by omega, ih (by simpa using hy)]
      rfl

/-- Settles O30: bit by bit, the packed rows are the pixels. -/
theorem snapshotPacksRowByRow : Obligations.SnapshotPacksRowByRow := by
  intro s x y
  have hy : y.toNat < s.fb.toList.length := y.isLt.trans_eq s.fb.length_toList.symm
  rw [State.snapshot, BitVec.getLsbD_ofNat, testBit_packRows _ x.isLt hy, Vector.getElem_toList, decide_eq_true (by omega),
    Bool.true_and]
  rfl

end Sys2Proof.Machine

/-! ## Keypad, timers and random byte (spec/45_keypad_timers_random.md) -/

namespace Sys2Proof.Machine

/-! ### Key skips -/

/-- `Ex9E` skips if the key is down (R176). -/
theorem exec_skp (x : Reg) (s : State) : exec (.skp x) s = .next (s.skipIf (s.keyDown (s.lowNibble x))) := rfl

/-- `ExA1` skips if the key is up (R177). -/
theorem exec_sknp (x : Reg) (s : State) : exec (.sknp x) s = .next (s.skipIf (!s.keyDown (s.lowNibble x))) := rfl

/-- The key of a register is the bit of its low nibble (R175, R176). -/
theorem State.keyDown_lowNibble (s : State) (x : Reg) :
    s.keyDown (s.lowNibble x) = s.keys.getLsbD ((s.getV x).toNat % 16) := by
  rw [State.keyDown, State.toNat_lowNibble]

/-- Settles O31: both are `skipIf` on one bit of the key vector. -/
theorem keySkipsTestTheLowNibble : Obligations.KeySkipsTestTheLowNibble := by
  intro x s
  refine ⟨⟨_, exec_skp x s, ?_, s.skipIf_onlyChanges _⟩, ⟨_, exec_sknp x s, ?_, s.skipIf_onlyChanges _⟩⟩
  · rw [State.skipIf_pc, State.keyDown_lowNibble]
  · simp only [State.skipIf_pc, State.keyDown_lowNibble, Bool.not_eq_true', ← Bool.not_eq_true, ite_not]

/-! ### Timers -/

/-- `Fx07` reads the delay timer (R178). -/
theorem exec_ldVxDt (x : Reg) (s : State) : exec (.ldVxDt x) s = .next (s.setV x s.dt) := rfl

/-- `Fx15` sets the delay timer (R179). -/
theorem exec_ldDtVx (x : Reg) (s : State) : exec (.ldDtVx x) s = .next { s with dt := s.getV x } := rfl

/-- `Fx18` sets the sound timer (R180). -/
theorem exec_ldStVx (x : Reg) (s : State) : exec (.ldStVx x) s = .next { s with st := s.getV x } := rfl

/-- Setting the delay timer changes nothing else. -/
theorem State.withDt_onlyChanges (s : State) (b : Byte) : OnlyChanges [.dt] s { s with dt := b } := by
  intro p hp
  cases p <;> simp_all [Keeps, State.getV]

/-- Setting the sound timer changes nothing else. -/
theorem State.withSt_onlyChanges (s : State) (b : Byte) : OnlyChanges [.st] s { s with st := b } := by
  intro p hp
  cases p <;> simp_all [Keeps, State.getV]

/-- The tone is active exactly while the sound timer is above 0 (R31). -/
theorem State.tone_iff (s : State) : s.tone = true ↔ 0 < s.st.toNat := decide_eq_true_iff

/-- Settles O32: each is one write, and the tone is a function of the sound timer. -/
theorem timerRegistersAreReadAndSet : Obligations.TimerRegistersAreReadAndSet := by
  intro x s
  refine ⟨⟨_, exec_ldVxDt x s, s.getV_setV_self x _, s.setV_onlyWrites x _, s.setV_onlyChanges x _⟩,
    ⟨_, exec_ldDtVx x s, rfl, s.withDt_onlyChanges _⟩, ⟨_, exec_ldStVx x s, rfl, ?_, s.withSt_onlyChanges _⟩⟩
  rw [State.tone_iff, Nat.pos_iff_ne_zero]
  exact not_congr (BitVec.toNat_inj (y := (0 : Byte)))

/-! ### The random byte -/

/-- `Cxnn` writes the random byte under the mask (R182). -/
theorem exec_rnd (x : Reg) (nn : Byte) (s : State) : exec (.rnd x nn) s = .next (s.setV x (s.rnd &&& nn)) := rfl

/-- Settles O33: the instruction is one write of V[x]. -/
theorem randomByteIsMasked : Obligations.RandomByteIsMasked := by
  intro x nn s
  refine ⟨_, exec_rnd x nn s, fun k => ?_, s.setV_onlyWrites x _, s.setV_onlyChanges x _⟩
  rw [State.getV_setV_self, BitVec.getLsbD_and]

/-! ### Waiting for a key -/

/-- `Fx0A` writes the lowest key down, or sets pc back (R183). -/
theorem exec_ldVxK (x : Reg) (s : State) : exec (.ldVxK x) s =
    .next ((lowestKey s.keys).elim (s.setPc (s.pc - 2)) fun k => s.setV x (k.setWidth 8)) := by
  unfold exec execLdVxK
  cases lowestKey s.keys <;> rfl

/-- `Fx0A` with no key down. -/
theorem exec_ldVxK_of_none {s : State} (x : Reg) (h : lowestKey s.keys = none) :
    exec (.ldVxK x) s = .next (s.setPc (s.pc - 2)) := by
  rw [exec_ldVxK, h, Option.elim_none]

/-- `Fx0A` with a key down, k being the lowest. -/
theorem exec_ldVxK_of_some {s : State} (x : Reg) {k : BitVec 4} (h : lowestKey s.keys = some k) :
    exec (.ldVxK x) s = .next (s.setV x (k.setWidth 8)) := by
  rw [exec_ldVxK, h, Option.elim_some]

/-- Settles O34: by whether a lowest key is found, which it is exactly where the key vector is not 0. -/
theorem keyWaitRepeatsOrTakesTheLowestKey : Obligations.KeyWaitRepeatsOrTakesTheLowestKey := by
  refine fun x s => ⟨fun hzero => ?_, fun hdown => ?_⟩
  · exact ⟨_, exec_ldVxK_of_none x ((lowestKey_eq_none s.keys).mpr hzero), rfl, s.setPc_onlyChanges _⟩
  · obtain ⟨k, hk⟩ := Option.ne_none_iff_exists'.mp fun hnone => hdown ((lowestKey_eq_none s.keys).mp hnone)
    obtain ⟨hbit, hlower⟩ := lowestKey_eq_some hk
    have hnumber : ((s.setV x (k.setWidth 8)).getV x).toNat = k.toNat := by
      rw [State.getV_setV_self, BitVec.toNat_setWidth]
      omega
    refine ⟨_, exec_ldVxK_of_some x hk, ?_, ?_, ?_, s.setV_onlyWrites x _, s.setV_onlyChanges x _⟩
    · rw [hnumber]
      exact k.isLt
    · rwa [hnumber]
    · rwa [hnumber]

end Sys2Proof.Machine

/-! ## What an instruction can do (spec/40_step_cycle.md R104, spec/60_exceptions.md) -/

/-! ### The pieces of state that an instruction may change -/

namespace Sys2Proof

open Machine in
/-- The pieces of state that an instruction may change when it raises no error: the union over its cases (R104). -/
def Instr.mayChange (i : Instr) : List Part :=
  match i with
  | .cls => [.fb]
  | .ret => [.sp, .pc]
  | .call _ => [.sp, .stack, .pc]
  | .jp _ | .jpV0 _ | .seImm _ _ | .sneImm _ _ | .seReg _ _ | .sneReg _ _ | .skp _ | .sknp _ => [.pc]
  | .ldImm _ _ | .addImm _ _ | .ldReg _ _ | .orReg _ _ | .andReg _ _ | .xorReg _ _ | .addReg _ _ | .subReg _ _
  | .shr _ _ | .subn _ _ | .shl _ _ | .rnd _ _ | .ldVxDt _ | .ldRegs _ => [.v]
  | .ldI _ | .addI _ | .ldF _ => [.i]
  | .drw _ _ _ => [.fb, .v]
  | .ldVxK _ => [.v, .pc]
  | .ldDtVx _ => [.dt]
  | .ldStVx _ => [.st]
  | .ldB _ | .stRegs _ => [.mem]

/-- No instruction changes the FSM state or the error code but by raising (R207). -/
theorem Instr.halted_err_not_mem_mayChange (i : Instr) : .halted ∉ i.mayChange ∧ .err ∉ i.mayChange := by
  cases i <;> simp [Instr.mayChange]

/-- An instruction that sets no pc does not change it (R27). -/
theorem Instr.pc_not_mem_mayChange {i : Instr} (h : i.setsPc = false) : .pc ∉ i.mayChange := by
  cases i <;> simp_all [Instr.mayChange, Instr.setsPc]

/-- An instruction that stores nothing does not change memory (R54). -/
theorem Instr.mem_not_mem_mayChange {i : Instr} (h : i.storesToMemory = false) : .mem ∉ i.mayChange := by
  cases i <;> simp_all [Instr.mayChange, Instr.storesToMemory]

/-- An instruction that is no display instruction does not change the display (R167 (d)). -/
theorem Instr.fb_not_mem_mayChange {i : Instr} (hcls : i ≠ .cls) (hdrw : ∀ x y n, i ≠ .drw x y n) :
    .fb ∉ i.mayChange := by
  cases i <;> simp_all [Instr.mayChange]

end Sys2Proof

namespace Sys2Proof.Machine

variable {i : Instr} {s t : State}

/-- Every instruction answers a next state: an error is a halt, and no arm refuses (R104, R207). -/
theorem exec_answers (i : Instr) (s : State) : ∃ t, exec i s = .next t := by
  cases i <;> exact ⟨_, rfl⟩

/-! ### The errors of the shared operations -/

/-- An error has a code (R200). -/
theorem Report.code_ne_none (e : Report) : e.code ≠ .none := by cases e <;> simp [Report.code]

/-- A block read raises `OutOfBoundsAccess` only (R58). -/
theorem State.readBlock_error_code {base n : Nat} {e : Report} (h : s.readBlock base n = .error e) :
    e.code = .outOfBoundsAccess := by
  rcases s.readBlock_cases base n with ⟨_, hok⟩ | ⟨_, _, herr⟩
  · cases hok.symm.trans h
  · cases herr.symm.trans h
    rfl

/-- A block store raises `OutOfBoundsAccess` only (R58). -/
theorem State.writeBlock_error_code {base : Nat} {bs : List Byte} {e : Report} (h : s.writeBlock base bs = .error e) :
    e.code = .outOfBoundsAccess := by
  rcases s.writeBlock_cases base bs with ⟨_, hok⟩ | ⟨_, _, herr⟩
  · cases hok.symm.trans h
  · cases herr.symm.trans h
    rfl

/-- A push raises `StackOverflow` only (R203). -/
theorem State.push_error_code {w : Word} {e : Report} (h : s.push w = .error e) : e.code = .stackOverflow := by
  rcases s.push_cases w with ⟨_, hok⟩ | ⟨_, herr⟩
  · cases hok.symm.trans h
  · cases herr.symm.trans h
    rfl

/-- A pop raises `StackUnderflow` only (R204). -/
theorem State.pop_error_code {e : Report} (h : s.pop = .error e) : e.code = .stackUnderflow := by
  rcases s.pop_cases with ⟨_, _, _, hok⟩ | ⟨_, herr⟩
  · cases hok.symm.trans h
  · cases herr.symm.trans h
    rfl

/-- A fetch raises `OutOfBoundsAccess` only (R101). -/
theorem State.fetch_error_code {e : Report} (h : s.fetch = .error e) : e.code = .outOfBoundsAccess := by
  rcases s.fetch_cases with ⟨_, hok⟩ | ⟨_, herr⟩
  · cases hok.symm.trans h
  · cases herr.symm.trans h
    rfl

/-! ### The inversion of `exec` -/

/-- A pop changes the depth only (R29). -/
theorem State.pop_onlyChanges {p : Word × State} (h : s.pop = .ok p) : OnlyChanges [.sp] s p.2 := by
  rcases s.pop_cases with ⟨_, _, _, hok⟩ | ⟨_, herr⟩
  · cases hok.symm.trans h
    exact s.withSp_onlyChanges _
  · cases herr.symm.trans h

/-- A block store that answers a state changes memory only (R53). -/
theorem State.writeBlock_onlyChanges {base : Nat} {bs : List Byte} (h : s.writeBlock base bs = .ok t) :
    OnlyChanges [.mem] s t := by
  rcases s.writeBlock_cases base bs with ⟨_, hok⟩ | ⟨_, _, herr⟩
  · cases hok.symm.trans h
    exact s.withMem_onlyChanges _
  · cases herr.symm.trans h

/-- The two ways an instruction ends: it changes no more than the named pieces, or it raises an error that can be
stored, in the state it began in (R207, R208). -/
def EndsWithin (parts : List Part) (s t : State) : Prop :=
  OnlyChanges parts s t ∨ ∃ e : Report, e.code ≠ .loadError ∧ t = s.raise e

/-- An operation that may raise, and what follows it: the frame of the one that succeeds, and the code of the error. -/
theorem State.attempt_endsWithin {α : Type} {parts : List Part} {c : ErrorCode} {r : Except Report α} {f : α → State}
    (hok : ∀ a, r = .ok a → OnlyChanges parts s (f a)) (herr : ∀ e, r = .error e → e.code = c)
    (hc : c ≠ .loadError) : EndsWithin parts s (s.attempt r f) := by
  rcases s.attempt_cases r f with ⟨a, ha, heq⟩ | ⟨e, he, heq⟩
  · exact .inl (heq ▸ hok a ha)
  · exact .inr ⟨e, herr e he ▸ hc, heq⟩

/-- `Fx0A` writes V[x] or sets pc back (R183). -/
theorem exec_ldVxK_onlyChanges {x : Reg} (h : exec (.ldVxK x) s = .next t) : OnlyChanges [.v, .pc] s t := by
  cases hkey : lowestKey s.keys with
  | none =>
    cases (exec_ldVxK_of_none x hkey).symm.trans h
    exact (s.setPc_onlyChanges _).mono (by simp)
  | some k =>
    cases (exec_ldVxK_of_some x hkey).symm.trans h
    exact (s.setV_onlyChanges _ _).mono (by simp)

/-- Everything an instruction can do: it changes no more than its own pieces of state, or it raises an error. -/
theorem exec_endsWithin (h : exec i s = .next t) : EndsWithin i.mayChange s t := by
  cases i with
  | cls => cases h; exact .inl (s.withFb_onlyChanges _)
  | jp nnn | jpV0 nnn => cases h; exact .inl (s.setPc_onlyChanges _)
  | seImm x nn | sneImm x nn | seReg x y | sneReg x y | skp x | sknp x => cases h; exact .inl (s.skipIf_onlyChanges _)
  | ldImm x nn | addImm x nn | ldReg x y | orReg x y | andReg x y | xorReg x y | rnd x nn | ldVxDt x =>
    cases h; exact .inl (s.setV_onlyChanges _ _)
  | addReg x y | subReg x y | shr x y | subn x y | shl x y => cases h; exact .inl (s.setResultAndFlag_onlyChanges _ _ _)
  | ldI nnn | addI x | ldF x => cases h; exact .inl (s.setI_onlyChanges _)
  | ldDtVx x => cases h; exact .inl (s.withDt_onlyChanges _)
  | ldStVx x => cases h; exact .inl (s.withSt_onlyChanges _)
  | ldVxK x => exact .inl (exec_ldVxK_onlyChanges h)
  | ret =>
    cases h
    exact State.attempt_endsWithin
      (fun p hp => ((State.pop_onlyChanges hp).mono (by simp [Instr.mayChange])).trans
        ((State.setPc_onlyChanges _ _).mono (by simp [Instr.mayChange])))
      (fun _ => State.pop_error_code) (by simp)
  | call nnn =>
    cases h
    exact State.attempt_endsWithin
      (fun t ht => ((State.push_onlyChanges ht).mono (by simp [Instr.mayChange])).trans
        ((State.setPc_onlyChanges _ _).mono (by simp [Instr.mayChange])))
      (fun _ => State.push_error_code) (by simp)
  | drw x y n =>
    cases h
    exact State.attempt_endsWithin (fun _ _ => s.putDrawing_onlyChanges _) (fun _ => State.readBlock_error_code) (by simp)
  | ldB x =>
    cases h
    exact State.attempt_endsWithin (fun _ => State.writeBlock_onlyChanges) (fun _ => State.writeBlock_error_code) (by simp)
  | stRegs x =>
    cases h
    refine State.attempt_endsWithin (fun t ht => ?_) (fun _ => State.writeBlock_error_code) (by simp)
    have hi : t.i = s.i := State.writeBlock_onlyChanges ht .i (by simp)
    rw [State.indexAfterBlock_eq, ← hi]
    exact State.writeBlock_onlyChanges ht
  | ldRegs x =>
    cases h
    refine State.attempt_endsWithin (fun bs _ => ?_) (fun _ => State.readBlock_error_code) (by simp)
    have hi : (s.setVs 0 bs).setI (s.indexAfterBlock x) = s.setVs 0 bs := by
      rw [State.setVs_eq]
      rfl
    rw [hi]
    exact s.setVs_onlyChanges 0 bs

/-- A piece of state that an instruction may not change, and that an error leaves, is as before. -/
theorem exec_keeps {p : Part} (h : exec i s = .next t) (hp : p ∉ i.mayChange) (hraise : p ∉ [.halted, .err, .report]) :
    Keeps p s t := by
  rcases exec_endsWithin h with hframe | ⟨e, _, rfl⟩
  · exact hframe p hp
  · obtain ⟨_, _, _, hframe⟩ := s.raise_haltsWith e
    exact hframe p hraise

/-- Settles O56: the display is among the pieces of the two display instructions only. -/
theorem onlyDisplayInstructionsDraw : Obligations.OnlyDisplayInstructionsDraw := by
  intro i s t hcls hdrw h
  exact exec_keeps h (Instr.fb_not_mem_mayChange hcls hdrw) (by simp)

/-- Settles O57: pc is among the pieces of the instructions that set it only. -/
theorem onlyTransfersSetPc : Obligations.OnlyTransfersSetPc := by
  intro i s t hsets h
  exact exec_keeps h (Instr.pc_not_mem_mayChange hsets) (by simp)

/-- Settles O58: memory is among the pieces of the two storing instructions only. -/
theorem onlyTwoInstructionsStore : Obligations.OnlyTwoInstructionsStore := by
  intro i s t hstores h
  exact exec_keeps h (Instr.mem_not_mem_mayChange hstores) (by simp)

/-! ### The inputs of the Step -/

variable {k : BitVec 16} {b : Byte}

/-- An operation that may raise, and what follows it, run after the inputs are sampled: as before the sampling, if that is
so for what follows. -/
theorem State.attempt_map_sample {α : Type} {r : Except Report α} {φ : α → α} {f g : α → State}
    (h : ∀ a, g (φ a) = (f a).sample k b) : (s.sample k b).attempt (r.map φ) g = (s.attempt r f).sample k b := by
  cases r with
  | ok a => exact h a
  | error e => rfl

/-- A push does not see the inputs. -/
theorem State.push_sample (s : State) (w : Word) :
    (s.sample k b).push w = (s.push w).map fun t => t.sample k b := by
  rcases s.push_cases w with ⟨hroom, hok⟩ | ⟨hfull, herr⟩
  · rw [hok, State.push_eq_ok (s := s.sample k b) w hroom]
    rfl
  · rw [herr, State.push_eq_stackOverflow (s := s.sample k b) w hfull]
    rfl

/-- A pop does not see the inputs. -/
theorem State.pop_sample (s : State) :
    (s.sample k b).pop = s.pop.map fun p => (p.1, p.2.sample k b) := by
  rcases s.pop_cases with ⟨j, hj, hsp, hok⟩ | ⟨hempty, herr⟩
  · rw [hok, State.pop_eq_ok (s := s.sample k b) hj hsp]
    rfl
  · rw [herr, State.pop_eq_stackUnderflow (s := s.sample k b) hempty]
    rfl

/-- A block store does not see the inputs. -/
theorem State.writeBlock_sample (s : State) (base : Nat) (bs : List Byte) :
    (s.sample k b).writeBlock base bs = (s.writeBlock base bs).map fun t => t.sample k b := by
  unfold State.writeBlock
  cases firstOffending base bs.length <;> rfl

/-- A block read does not see the inputs. -/
theorem State.readBlock_sample (s : State) (base n : Nat) :
    (s.sample k b).readBlock base n = (s.readBlock base n).map id := by
  unfold State.readBlock
  cases firstOffending base n <;> rfl

/-- A skip does not see the inputs. -/
theorem State.skipIf_sample (s : State) (c : Bool) : (s.sample k b).skipIf c = (s.skipIf c).sample k b := by
  cases c <;> rfl

/-- Loading registers does not see the inputs. -/
theorem State.setVs_sample (s : State) (j : Nat) (bs : List Byte) :
    (s.sample k b).setVs j bs = (s.setVs j bs).sample k b := by
  induction bs generalizing s j with
  | nil => rfl
  | cons c bs ih => exact ih (s.setV (BitVec.ofNat 4 j) c) (j + 1)

/-- Settles O59: each instruction outside the four is operations that do not see the inputs. -/
theorem inputsReachOnlyFourInstructions : Obligations.InputsReachOnlyFourInstructions := by
  intro i s k b hreads
  cases i with
  | skp x | sknp x | ldVxK x | rnd x nn => cases hreads
  | seImm x nn | sneImm x nn | seReg x y | sneReg x y => exact congrArg Host.Outcome.next (s.skipIf_sample _)
  | ret =>
    rw [exec_ret, exec_ret, State.pop_sample]
    exact congrArg Host.Outcome.next (State.attempt_map_sample fun _ => rfl)
  | call nnn =>
    rw [exec_call, exec_call, State.sample_pc, State.push_sample]
    exact congrArg Host.Outcome.next (State.attempt_map_sample fun _ => rfl)
  | drw x y n =>
    rw [exec_drw, exec_drw, State.sample_i, State.readBlock_sample]
    exact congrArg Host.Outcome.next (State.attempt_map_sample fun _ => rfl)
  | ldB x =>
    rw [exec_ldB, exec_ldB, State.sample_i, State.getV_sample, State.writeBlock_sample]
    exact congrArg Host.Outcome.next (State.attempt_map_sample fun _ => rfl)
  | stRegs x =>
    rw [exec_stRegs, exec_stRegs, State.sample_i, State.writeBlock_sample]
    exact congrArg Host.Outcome.next (State.attempt_map_sample fun _ => rfl)
  | ldRegs x =>
    rw [exec_ldRegs, exec_ldRegs, State.sample_i, State.readBlock_sample]
    exact congrArg Host.Outcome.next (State.attempt_map_sample fun bs =>
      congrArg (fun t : State => t.setI (s.indexAfterBlock x)) (s.setVs_sample 0 bs))
  | _ => rfl

end Sys2Proof.Machine

/-! ## The Step (spec/40_step_cycle.md, spec/60_exceptions.md) -/

namespace Sys2Proof.Machine

variable {i : Instr} {s t u : State}

/-! ### Fetch, advance and decode of a Step -/

/-- A Step fetches the word that stands at pc in the state before it (R101). -/
theorem AboutToStep.fetch_eq (h : AboutToStep s t) (hpc : s.pc.toNat ≤ 0xFFE) :
    t.fetch = .ok (wordAt s.mem s.pc.toNat) := by
  have hmem : ∀ a, t.mem.readByte a = s.mem.readByte a := h.sameMachine .mem (by decide)
  rw [State.fetch_eq_wordAt (h.pc_eq ▸ hpc), wordAt, wordAt, h.pc_eq, hmem, hmem]

/-- A Step of a halted core ends at once (R105). -/
theorem AboutToStep.step_eq_of_halted (h : AboutToStep s t) (hhalted : s.halted = true) : step s = .next t := by
  have hphase : t.fetchDecode = .done t := by simp [State.fetchDecode, h.halted_eq, hhalted]
  rw [h.step_eq, hphase]

/-- A Step of a legal word is the execute phase of its instruction after the advance (R102 to R104). -/
theorem AboutToStep.step_eq_exec (h : AboutToStep s t) (hrun : s.halted = false) (hpc : s.pc.toNat ≤ 0xFFE)
    (hdecode : decodeWord (wordAt s.mem s.pc.toNat) = some i) : step s = exec i t.advance := by
  have hphase : t.fetchDecode = .execute i t.advance := by
    simp [State.fetchDecode, h.halted_eq, hrun, h.fetch_eq hpc, hdecode]
  rw [h.step_eq, hphase]

/-- A Step of an illegal word raises `DecodeError` after the advance (R103, R208). -/
theorem AboutToStep.step_eq_decodeError (h : AboutToStep s t) (hrun : s.halted = false) (hpc : s.pc.toNat ≤ 0xFFE)
    (hdecode : decodeWord (wordAt s.mem s.pc.toNat) = none) :
    step s = .next (t.advance.raise (.decodeError (wordAt s.mem s.pc.toNat))) := by
  have hphase : t.fetchDecode = .done (t.advance.raise (.decodeError (wordAt s.mem s.pc.toNat))) := by
    simp [State.fetchDecode, h.halted_eq, hrun, h.fetch_eq hpc, hdecode]
  rw [h.step_eq, hphase]

/-- Settles O40: the advance writes pc + 2 and nothing else. -/
theorem stepRunsTheDecodedInstruction : Obligations.StepRunsTheDecodedInstruction := by
  intro s t i h hrun hpc hdecode _
  rw [h.step_eq_exec hrun hpc hdecode, ← h.pc_eq]
  rfl

/-- The advance changes pc only (R102). -/
theorem State.advance_onlyChanges (s : State) : OnlyChanges [.pc] s s.advance := s.setPc_onlyChanges _

/-- An error raised after the advance leaves everything but pc and what a halt writes (R208). -/
theorem State.advance_raise_onlyChanges (s : State) (e : Report) :
    OnlyChanges [.pc, .halted, .err, .report] s (s.advance.raise e) := by
  obtain ⟨_, _, _, hraise⟩ := s.advance.raise_haltsWith e
  exact (s.advance_onlyChanges.mono (by simp)).trans (hraise.mono (by simp))

/-- Settles O41: the error is raised after the advance. -/
theorem illegalWordHaltsWithDecodeError : Obligations.IllegalWordHaltsWithDecodeError := by
  intro s t h hrun hpc hdecode
  refine ⟨_, h.step_eq_decodeError hrun hpc hdecode, ?_, rfl, rfl, rfl, t.advance_raise_onlyChanges _⟩
  rw [State.raise_pc, State.advance_pc, h.pc_eq]

/-- Settles O43: the Step ends in the state with the inputs sampled. -/
theorem haltedStepChangesNothing : Obligations.HaltedStepChangesNothing := by
  intro s t h hhalted
  exact ⟨t, h.step_eq_of_halted hhalted, h.sameMachine⟩

/-! ### A Step of a skip -/

/-- A skip instruction is `skipIf` on its condition (R117). -/
theorem exec_eq_skipIf {c : Prop} (h : skipCondition i s = some c) :
    ∃ b : Bool, (b = true ↔ c) ∧ exec i s = .next (s.skipIf b) := by
  cases i with
  | seImm x nn => cases h; exact ⟨_, beq_iff_eq, exec_seImm x nn s⟩
  | sneImm x nn => cases h; exact ⟨_, bne_iff_ne, exec_sneImm x nn s⟩
  | seReg x y => cases h; exact ⟨_, beq_iff_eq, exec_seReg x y s⟩
  | sneReg x y => cases h; exact ⟨_, bne_iff_ne, exec_sneReg x y s⟩
  | skp x => cases h; exact ⟨_, by rw [State.keyDown_lowNibble], exec_skp x s⟩
  | sknp x => cases h; exact ⟨_, by rw [State.keyDown_lowNibble, Bool.not_eq_true'], exec_sknp x s⟩
  | _ => cases h

/-- The condition of a skip does not depend on pc (R117). -/
theorem skipCondition_advance (i : Instr) (s : State) : skipCondition i s.advance = skipCondition i s := by
  cases i <;> rfl

/-- Settles O44: after the advance a skip is `skipIf` on its condition, which advances once more or does nothing. -/
theorem skipStepsAdvanceFourOrTwo : Obligations.SkipStepsAdvanceFourOrTwo := by
  intro s t i c h hrun hpc hdecode hskip
  rw [← skipCondition_advance] at hskip
  obtain ⟨b, hb, hexec⟩ := exec_eq_skipIf hskip
  refine ⟨_, (h.step_eq_exec hrun hpc hdecode).trans hexec, fun hc => ?_, fun hc => ?_,
    t.advance_onlyChanges.trans (State.skipIf_onlyChanges _ _)⟩
  · rw [State.skipIf_pc, if_pos (hb.mpr hc), State.advance_pc, h.pc_eq, BitVec.add_assoc]
    rfl
  · rw [State.skipIf_pc, if_neg (mt hb.mp hc), State.advance_pc, h.pc_eq]

/-! ### A Step at a jump to itself -/

/-- A word 0x1000 + a with a at most 0xFFE is the jump to a (R247 (c)). -/
theorem decodeWord_jumpTo {w p : Word} (hp : p.toNat ≤ 0xFFE) (hw : w.toNat = 0x1000 + p.toNat) :
    decodeWord w = some (.jp (p.setWidth 12)) := by
  have hencode : encode (.jp (p.setWidth 12)) = w := by
    apply BitVec.eq_of_toNat_eq
    show (0x1#4 ++ p.setWidth 12).toNat = w.toNat
    rw [BitVec.toNat_append, hw, BitVec.toNat_setWidth, Nat.mod_eq_of_lt (by omega),
      ← Nat.shiftLeft_add_eq_or_of_lt (by omega)]
    rfl
  rw [← hencode, decodeWord_encode]

/-- Zero-extending the low 12 bits of an address in memory gives it back. -/
theorem addressOf_setWidth {p : Word} (hp : p.toNat ≤ 0xFFE) : addressOf (p.setWidth 12) = p := by
  apply BitVec.eq_of_toNat_eq
  rw [toNat_addressOf, BitVec.toNat_setWidth, Nat.mod_eq_of_lt (by omega)]

/-- The end of a run is read off the hardware's state. -/
theorem SameMachine.ended (h : SameMachine s t) (hended : s.ended) : t.ended := by
  have hmem : ∀ a, t.mem.readByte a = s.mem.readByte a := h .mem (by decide)
  have hpc : t.pc = s.pc := h .pc (by decide)
  have hhalted : t.halted = s.halted := h .halted (by decide)
  unfold State.ended wordAt at *
  rwa [hhalted, hpc, hmem, hmem]

/-- Settles O45: the jump writes pc with the value it had before the advance. -/
theorem jumpToSelfIsAFixedPoint : Obligations.JumpToSelfIsAFixedPoint := by
  intro s t h hended
  obtain ⟨hrun, hpc, hword⟩ := hended
  have hstep : step s = .next (t.setPc s.pc) := by
    rw [h.step_eq_exec hrun hpc (decodeWord_jumpTo hpc hword), exec_jp, addressOf_setWidth hpc]
    rfl
  have hpcKept : t.setPc s.pc = t := by rw [← h.pc_eq]; rfl
  rw [hpcKept] at hstep
  exact ⟨t, hstep, h.sameMachine, h.sameMachine.ended ⟨hrun, hpc, hword⟩⟩

/-! ### Every way a Step can end -/

/-- An instruction that ends halted, begun in a running state, has raised an error that can be stored (R207). -/
theorem exec_raises_of_halted (h : exec i s = .next t) (hrun : s.halted = false) (hhalted : t.halted = true) :
    ∃ e : Report, e.code ≠ .loadError ∧ t = s.raise e := by
  rcases exec_endsWithin h with hframe | hraise
  · have hkept : t.halted = s.halted := hframe .halted i.halted_err_not_mem_mayChange.1
    rw [hkept, hrun] at hhalted
    cases hhalted
  · exact hraise

/-- A Step of a running core that halts it has raised: in the fetch, with pc as it was; or after the advance. -/
theorem AboutToStep.raises_of_halted (h : AboutToStep s t) (hrun : s.halted = false) (hstep : step s = .next u)
    (hhalted : u.halted = true) :
    (0xFFE < s.pc.toNat ∧ ∃ e : Report, e.code = .outOfBoundsAccess ∧ u = t.raise e) ∨
    (s.pc.toNat ≤ 0xFFE ∧ ∃ e : Report, e.code ≠ .loadError ∧ u = t.advance.raise e) := by
  by_cases hpc : s.pc.toNat ≤ 0xFFE
  · refine .inr ⟨hpc, ?_⟩
    cases hdecode : decodeWord (wordAt s.mem s.pc.toNat) with
    | none =>
      cases (h.step_eq_decodeError hrun hpc hdecode).symm.trans hstep
      exact ⟨_, by simp [Report.code], rfl⟩
    | some i =>
      have hexec := (h.step_eq_exec hrun hpc hdecode).symm.trans hstep
      exact exec_raises_of_halted hexec (h.halted_eq.trans hrun) hhalted
  · have hfetch := State.fetch_eq_outOfBounds (s := t) (by rw [h.pc_eq]; omega)
    cases (h.step_eq_raise_of_fetch_error (h.halted_eq.trans hrun) hfetch).symm.trans hstep
    exact .inl ⟨by omega, _, rfl, rfl⟩

/-- Settles O46: the error is raised by the fetch, before the advance, or after it; raising changes nothing else. -/
theorem errorsArePrecise : Obligations.ErrorsArePrecise := by
  intro s t u h hrun hstep hhalted
  rcases h.raises_of_halted hrun hstep hhalted with ⟨hpc, e, hcode, rfl⟩ | ⟨hpc, e, hcode, rfl⟩
  · obtain ⟨_, _, _, hframe⟩ := t.raise_haltsWith e
    exact ⟨e, rfl, rfl, e.code_ne_none, by simp [hcode], hframe.mono (by simp), fun _ => ⟨h.pc_eq, hcode⟩,
      fun hle => absurd hpc (by omega)⟩
  · refine ⟨e, rfl, rfl, e.code_ne_none, hcode, t.advance_raise_onlyChanges e, fun hlt => absurd hpc (by omega), fun _ => ?_⟩
    rw [State.raise_pc, State.advance_pc, h.pc_eq]

/-- Settles O48: an event ends in a state, or in the execute phase of an instruction, which always answers one. -/
theorem everyStepHasANextState : Obligations.EveryStepHasANextState := by
  intro s
  rcases step_eq s with ⟨t, _, hdone⟩ | ⟨i, t, _, hexec⟩
  · exact ⟨t, hdone⟩
  · rw [hexec]
    exact exec_answers i t

end Sys2Proof.Machine

/-! ## The events that are no Step (spec/60_exceptions.md, spec/20_memory.md R63, spec/70_reset_and_hazards.md) -/

namespace Sys2Proof.Machine

variable {s t u : State}

/-- Taking an event off the schedule changes nothing of the hardware's state. -/
theorem Takes.sameMachine {e : Event} (h : Takes e s t) : SameMachine s t := h.onlyChanges.mono (by simp)

/-- Taking an event ends the report of the event before (R207). -/
theorem Takes.report_eq {e : Event} (h : Takes e s t) : t.report = none := by
  obtain ⟨_, _, rfl⟩ | ⟨_, rfl, _⟩ := h <;> rfl

/-- Every event but a Step ends in its own effect (R10). -/
theorem Takes.step_eq_of_done {e : Event} (h : Takes e s t) (hdone : t.begin e = .done u) : step s = .next u := by
  rw [h.step_eq, hdone]

/-! ### Tick and Stop -/

/-- A timer goes down by one and stays at 0 (R214). -/
theorem toNat_tickTimer (b : Byte) : (tickTimer b).toNat = b.toNat - 1 := by
  unfold tickTimer
  split_ifs with hzero
  · rw [hzero]
    rfl
  · have hpos : b.toNat ≠ 0 := fun h => hzero (BitVec.eq_of_toNat_eq h)
    have hone : (1 : Byte).toNat = 1 := rfl
    rw [toNat_sub_byte]
    omega

/-- A Tick changes the timers only (R214). -/
theorem State.tick_onlyChanges (s : State) : OnlyChanges [.dt, .st] s s.tick := by
  intro p hp
  cases p <;> simp_all [Keeps, State.getV]

/-- Settles O49: both timers tick, and nothing else changes. -/
theorem tickDecrementsBothTimers : Obligations.TickDecrementsBothTimers := by
  intro s u h
  have hdt : u.dt = s.dt := h.sameMachine .dt (by decide)
  have hst : u.st = s.st := h.sameMachine .st (by decide)
  refine ⟨u.tick, h.step_eq_of_done rfl, ?_, ?_, rfl, u.tick_onlyChanges⟩
  · rw [State.tick_dt, toNat_tickTimer, hdt]
  · rw [State.tick_st, toNat_tickTimer, hst]

/-- A Stop changes the FSM state only (R211). -/
theorem State.stop_onlyChanges (s : State) : OnlyChanges [.halted] s s.stop := by
  intro p hp
  cases p <;> simp_all [Keeps, State.getV]

/-- Settles O50: a Stop writes the FSM state only, so that the invariant's None stays None. -/
theorem stopHaltsAndKeepsErr : Obligations.StopHaltsAndKeepsErr := by
  intro s u h
  have herr : u.err = s.err := h.sameMachine .err (by decide)
  exact ⟨u.stop, h.step_eq_of_done rfl, rfl, fun hinv hrun => herr.trans (hinv.errNone hrun), rfl, u.stop_onlyChanges⟩

/-! ### Load -/

/-- A Load that fits stores its bytes (R63). -/
theorem State.load_eq_store {bytes : List Byte} {start : Nat} (h : start + bytes.length ≤ 4096) :
    s.load bytes start = { s with mem := s.mem.writeBytes start bytes } := if_pos h

/-- A Load that does not fit is reported (R205). -/
theorem State.load_eq_report {bytes : List Byte} {start : Nat} (h : 4096 < start + bytes.length) :
    s.load bytes start = { s with report := some (.loadError start bytes.length) } := if_neg (Nat.not_le.mpr h)

/-- Reporting changes nothing else (R205). -/
theorem State.withReport_onlyChanges (s : State) (r : Option Report) : OnlyChanges [.report] s { s with report := r } := by
  intro p hp
  cases p <;> simp_all [Keeps, State.getV]

/-- The memory an event acts on is the one before it: taking the event off the schedule does not touch it. -/
theorem Takes.mem_eq {e : Event} (h : Takes e s t) : t.mem = s.mem := by
  obtain ⟨_, _, rfl⟩ | ⟨_, rfl, _⟩ := h <;> rfl

/-- Settles O51: a Load that fits is one block store, and one that does not is one report. -/
theorem loadStoresItsBytesOrFails : Obligations.LoadStoresItsBytesOrFails := by
  refine fun s u bytes start hm h => ⟨fun hfits => ?_, fun hfails => ?_⟩
  · have hstep := h.step_eq_of_done (u := u.load bytes start) rfl
    rw [State.load_eq_store hfits, h.mem_eq] at hstep
    exact ⟨_, hstep, fun k hk => Memory.readByte_writeBytes_inside hm start bytes hk,
      fun a ha => Memory.readByte_writeBytes_outside hm ha, h.report_eq, rfl, u.withMem_onlyChanges _⟩
  · have hstep := h.step_eq_of_done (u := u.load bytes start) rfl
    rw [State.load_eq_report hfails] at hstep
    exact ⟨_, hstep, rfl, rfl, u.withReport_onlyChanges _⟩

/-! ### Reset -/

/-- Settles O53: field by field; the arrays of zeros read 0. -/
theorem resetStateHasTheResetValues : Obligations.ResetStateHasTheResetValues where
  mem _ := rfl
  v r := by simp [State.getV, State.reset]
  i := rfl
  pc := rfl
  sp := rfl
  stack k hk := by simp [State.reset]
  fb := Framebuffer.pixel_clear
  dt := rfl
  st := rfl
  halted := rfl
  err := rfl

/-- Settles O52: a Reset event answers the reset state with the schedule as it is. -/
theorem resetEventGivesTheResetValues : Obligations.ResetEventGivesTheResetValues := by
  intro s u h
  have hreset : AtReset u.hostReset := { resetStateHasTheResetValues with }
  exact ⟨u.hostReset, h.step_eq_of_done rfl, hreset, rfl, rfl, rfl⟩

/-! ### The halted core -/

/-- Settles O47: by the event that is taken: a Step ends at once, a Tick, a Stop and a Load write neither the FSM state of
a halted core nor its error, and a Reset is excluded. -/
theorem onlyResetLeavesHalted : Obligations.OnlyResetLeavesHalted := by
  intro s u hhalted hstep hnoReset
  have htakes := s.takeEvent_takes
  generalize s.takeEvent.1 = e, s.takeEvent.2 = t at htakes
  have hkept : t.halted = s.halted := htakes.sameMachine .halted (by decide)
  have herr : t.err = s.err := htakes.sameMachine .err (by decide)
  cases e with
  | step k r =>
    have h : AboutToStep s (t.sample k r) := ⟨k, r, t, htakes, rfl⟩
    cases (h.step_eq_of_halted hhalted).symm.trans hstep
    exact ⟨hkept.trans hhalted, herr⟩
  | tick =>
    cases (htakes.step_eq_of_done rfl).symm.trans hstep
    exact ⟨hkept.trans hhalted, herr⟩
  | stop =>
    cases (htakes.step_eq_of_done rfl).symm.trans hstep
    exact ⟨rfl, herr⟩
  | load bytes start =>
    cases (htakes.step_eq_of_done rfl).symm.trans hstep
    rcases Nat.lt_or_ge 4096 (start + bytes.length) with hfails | hfits
    · rw [State.load_eq_report hfails]
      exact ⟨hkept.trans hhalted, herr⟩
    · rw [State.load_eq_store hfits]
      exact ⟨hkept.trans hhalted, herr⟩
  | reset => exact absurd htakes (hnoReset t)

end Sys2Proof.Machine

/-! ## The invariant (spec/10_state.md sections 4, 8 and 10) and the outputs (section 7) -/

namespace Sys2Proof.Machine

variable {i : Instr} {s t u : State}

/-! ### Canonical memory -/

/-- An operation that may raise keeps the canonical form if what follows it does. -/
theorem State.wf_attempt {α : Type} {r : Except Report α} {f : α → State} (hwf : s.mem.wf)
    (hok : ∀ a, r = .ok a → (f a).mem.wf) : (s.attempt r f).mem.wf := by
  rcases s.attempt_cases r f with ⟨a, ha, heq⟩ | ⟨e, _, heq⟩
  · exact heq ▸ hok a ha
  · exact heq ▸ hwf

/-- Every instruction keeps the canonical form: a block store does, and the others leave the memory itself (log entry 8). -/
theorem exec_wf (hwf : s.mem.wf) (h : exec i s = .next t) : t.mem.wf := by
  cases i with
  | ldB x => cases h; exact State.wf_attempt hwf fun _ => State.wf_writeBlock hwf
  | stRegs x => cases h; exact State.wf_attempt hwf fun t ht => State.wf_writeBlock (t := t) hwf ht
  | ldRegs x => cases h; exact State.wf_attempt hwf fun bs _ => by rwa [State.setI_mem, State.setVs_mem]
  | drw x y n => cases h; exact State.wf_attempt hwf fun _ _ => hwf
  | ret =>
    rcases s.pop_cases with ⟨k, hk, hsp, _⟩ | ⟨hempty, _⟩
    · cases (exec_ret_eq_setPc hk hsp).symm.trans h; exact hwf
    · cases (exec_ret_eq_raise hempty).symm.trans h; exact hwf
  | call nnn =>
    cases h
    refine State.wf_attempt hwf fun u hu => ?_
    rcases s.push_cases s.pc with ⟨_, hok⟩ | ⟨_, herr⟩
    · cases hok.symm.trans hu; exact hwf
    · cases herr.symm.trans hu
  | ldVxK x =>
    cases hkey : lowestKey s.keys with
    | none => cases (exec_ldVxK_of_none x hkey).symm.trans h; exact hwf
    | some k => cases (exec_ldVxK_of_some x hkey).symm.trans h; exact hwf
  | seImm x nn | sneImm x nn | seReg x y | sneReg x y | skp x | sknp x => cases h; rwa [State.skipIf_mem]
  | _ => cases h; exact hwf

/-! ### The stack -/

/-- Every valid stack entry is at most 0x1000: the stack's part of the invariant (R28). -/
def State.StackBounded (s : State) : Prop := ∀ k (h : k < 16), k < s.sp.val → (s.stack[k]'h).toNat ≤ 0x1000

/-- Fewer entries, or as many, of the same slots keep the bound. -/
theorem State.StackBounded.of_le (h : s.StackBounded) (hsp : t.sp.val ≤ s.sp.val) (hstack : t.stack = s.stack) :
    t.StackBounded := by
  intro k hk hlt
  simpa only [hstack] using h k hk (by omega)

/-- A call pushes an address of at most 0x1000, and a return takes an entry off; no other instruction touches the stack
(R28, R29). -/
theorem exec_stackBounded (h : exec i s = .next t) (hstack : s.StackBounded) (hpc : s.pc.toNat ≤ 0x1000) :
    t.StackBounded := by
  rcases exec_endsWithin h with hframe | ⟨e, _, rfl⟩
  case inr => exact hstack.of_le (t := s.raise e) (Nat.le_refl _) rfl
  cases i with
  | ret =>
    rcases s.pop_cases with ⟨k, hk, hsp, _⟩ | ⟨hempty, _⟩
    · cases (exec_ret_eq_setPc hk hsp).symm.trans h
      exact hstack.of_le (by simp [hsp]) rfl
    · cases (exec_ret_eq_raise hempty).symm.trans h
      exact hstack.of_le (t := s.raise .stackUnderflow) (Nat.le_refl _) rfl
  | call nnn =>
    obtain ⟨hroom, hfull⟩ := callPushesTheReturnAddressOrOverflows nnn s
    rcases Nat.lt_or_ge s.sp.val 16 with hsp | hsp
    · obtain ⟨_, hcall, hslot, hdepth, _, hothers, _⟩ := hroom hsp
      obtain rfl := Host.Outcome.next.inj (h.symm.trans hcall)
      intro k hk hlt
      by_cases hnew : k = s.sp.val
      · subst hnew
        rwa [hslot]
      · rw [hothers k hk hnew]
        exact hstack k hk (by omega)
    · obtain ⟨_, hcall, _, _, _, hrest⟩ := hfull (by omega)
      obtain rfl := Host.Outcome.next.inj (h.symm.trans hcall)
      have hdepth : t.sp = s.sp := hrest .sp (by simp)
      exact hstack.of_le (by rw [hdepth]) (hrest .stack (by simp))
  | _ =>
    have hdepth : t.sp = s.sp := hframe .sp (by simp [Instr.mayChange])
    exact hstack.of_le (by rw [hdepth]) (hframe .stack (by simp [Instr.mayChange]))

/-! ### The program counter -/

/-- A skip moves pc on by at most 2 (R117). -/
theorem State.toNat_skipIf_pc_le (hpc : s.pc.toNat ≤ 0x1000) (c : Bool) : (s.skipIf c).pc.toNat ≤ 0x1002 := by
  have htwo : (2 : Word).toNat = 2 := rfl
  rw [State.skipIf_pc]
  split
  · rw [BitVec.toNat_add]
    omega
  · omega

/-- The advanced pc less 2 is the pc of the instruction itself, which `Fx0A` goes back to (R183). -/
theorem toNat_sub_two {p : Word} (hp : 2 ≤ p.toNat) : (p - 2).toNat = p.toNat - 2 :=
  BitVec.toNat_sub_of_le hp

/-- Every instruction leaves pc at most 0x10FE, which `Bnnn` can reach (R28). -/
theorem exec_pc_le (h : exec i s = .next t) (hinv : s.Inv) (hlow : 2 ≤ s.pc.toNat) (hpc : s.pc.toNat ≤ 0x1000) :
    t.pc.toNat ≤ 0x10FE := by
  cases hsets : i.setsPc with
  | false =>
    rw [onlyTransfersSetPc i s t hsets h]
    exact hinv.pcBound
  | true =>
    cases i with
    | jp nnn =>
      cases h
      rw [State.setPc_pc, toNat_addressOf]
      omega
    | jpV0 nnn =>
      cases h
      rw [State.setPc_pc, State.toNat_addressOf_add_offsetV]
      omega
    | seImm x nn | sneImm x nn | seReg x y | sneReg x y | skp x | sknp x =>
      cases h
      exact (State.toNat_skipIf_pc_le hpc _).trans (by omega)
    | ret =>
      rcases s.pop_cases with ⟨k, hk, hsp, _⟩ | ⟨hempty, _⟩
      · cases (exec_ret_eq_setPc hk hsp).symm.trans h
        exact (hinv.stackBound k hk (by omega)).trans (by omega)
      · cases (exec_ret_eq_raise hempty).symm.trans h
        exact hinv.pcBound
    | call nnn =>
      cases h
      rcases s.attempt_cases (s.push s.pc) (fun t => t.setPc (addressOf nnn)) with ⟨a, _, heq⟩ | ⟨e, _, heq⟩
      · rw [heq, State.setPc_pc, toNat_addressOf]
        omega
      · rw [heq]
        exact hinv.pcBound
    | ldVxK x =>
      cases hkey : lowestKey s.keys with
      | none =>
        cases (exec_ldVxK_of_none x hkey).symm.trans h
        rw [State.setPc_pc, toNat_sub_two hlow]
        omega
      | some k =>
        cases (exec_ldVxK_of_some x hkey).symm.trans h
        exact hinv.pcBound
    | _ => cases hsets

/-! ### Every event keeps the invariant -/

/-- An error that can be stored keeps the invariant (R207). -/
theorem State.Inv.raise (h : s.Inv) {e : Report} (he : e.code ≠ .loadError) : (s.raise e).Inv where
  memWf := h.memWf
  pcBound := h.pcBound
  stackBound := h.stackBound
  errNone hrun := by cases hrun
  errNotLoad := he

/-- The advance keeps the invariant where a word can be fetched (R102). -/
theorem State.Inv.advance (h : s.Inv) (hpc : s.advance.pc.toNat ≤ 0x1000) : s.advance.Inv where
  memWf := h.memWf
  pcBound := hpc.trans (by omega)
  stackBound := h.stackBound
  errNone := h.errNone
  errNotLoad := h.errNotLoad

/-- The execute phase keeps the invariant, begun where the advance leaves pc (R28, R32). -/
theorem State.Inv.exec (h : s.Inv) (hlow : 2 ≤ s.pc.toNat) (hpc : s.pc.toNat ≤ 0x1000)
    (hexec : Machine.exec i s = .next t) : t.Inv := by
  rcases exec_endsWithin hexec with hframe | ⟨e, he, rfl⟩
  · obtain ⟨hhalted, herr⟩ := i.halted_err_not_mem_mayChange
    have hhalted : t.halted = s.halted := hframe .halted hhalted
    have herr : t.err = s.err := hframe .err herr
    exact {
      memWf := exec_wf h.memWf hexec
      pcBound := exec_pc_le hexec h hlow hpc
      stackBound := exec_stackBounded hexec h.stackBound hpc
      errNone := fun hrun => herr.trans (h.errNone (hhalted.symm.trans hrun))
      errNotLoad := fun hload => h.errNotLoad (herr.symm.trans hload) }
  · exact h.raise he

/-- Taking an event off the schedule keeps the invariant. -/
theorem State.Inv.takes {e : Event} (h : s.Inv) (ht : Takes e s t) : t.Inv := by
  obtain ⟨hwf, hpc, hstack, hnone, hload⟩ := h
  obtain ⟨_, _, rfl⟩ | ⟨_, rfl, _⟩ := ht
  · exact ⟨hwf, hpc, hstack, hnone, hload⟩
  · exact ⟨hwf, hpc, hstack, hnone, hload⟩

/-- Sampling the inputs keeps the invariant. -/
theorem State.Inv.sample (h : s.Inv) (k : BitVec 16) (b : Byte) : (s.sample k b).Inv :=
  ⟨h.memWf, h.pcBound, h.stackBound, h.errNone, h.errNotLoad⟩

/-- A Tick keeps the invariant (R214). -/
theorem State.Inv.tick (h : s.Inv) : s.tick.Inv := ⟨h.memWf, h.pcBound, h.stackBound, h.errNone, h.errNotLoad⟩

/-- A Stop keeps the invariant: a halted core may hold None (R211). -/
theorem State.Inv.stop (h : s.Inv) : s.stop.Inv :=
  ⟨h.memWf, h.pcBound, h.stackBound, fun hrun => (by cases hrun), h.errNotLoad⟩

/-- A Load keeps the invariant: its error is reported and not stored (R205). -/
theorem State.Inv.load (h : s.Inv) (bytes : List Byte) (start : Nat) : (s.load bytes start).Inv := by
  have hwf := State.wf_load h.memWf bytes start
  rcases Nat.lt_or_ge 4096 (start + bytes.length) with hfails | hfits
  · rw [State.load_eq_report hfails]
    exact ⟨h.memWf, h.pcBound, h.stackBound, h.errNone, h.errNotLoad⟩
  · rw [State.load_eq_store hfits] at hwf ⊢
    exact ⟨hwf, h.pcBound, h.stackBound, h.errNone, h.errNotLoad⟩

/-- Settles O55: with depth 0 there is no valid entry. -/
theorem resetMeetsTheInvariant : Obligations.ResetMeetsTheInvariant where
  memWf := Memory.wf_reset
  pcBound := by decide
  stackBound k _ hlt := absurd hlt (Nat.not_lt_zero k)
  errNone _ := rfl
  errNotLoad := by decide

/-- A Reset event establishes the invariant (R240). -/
theorem State.Inv.hostReset (s : State) : s.hostReset.Inv := { resetMeetsTheInvariant with }

/-- The advance from where a word can be fetched (R102). -/
theorem State.toNat_advance_pc (hpc : s.pc.toNat ≤ 0xFFE) : s.advance.pc.toNat = s.pc.toNat + 2 := by
  have htwo : (2 : Word).toNat = 2 := rfl
  rw [State.advance_pc, BitVec.toNat_add]
  omega

/-- A Step keeps the invariant: on each of the ways its fetch and decode end (R100 to R105). -/
theorem AboutToStep.inv (h : AboutToStep s t) (hinv : t.Inv) (hstep : step s = .next u) : u.Inv := by
  rw [h.step_eq] at hstep
  rcases t.fetchDecode_cases with ⟨_, hphase⟩ | ⟨_, e, herr, hphase⟩ | ⟨_, w, hok, _, hphase⟩ | ⟨_, w, i, hok, _, hphase⟩ <;>
    rw [hphase] at hstep
  · cases hstep
    exact hinv
  · cases hstep
    exact hinv.raise (by simp [State.fetch_error_code herr])
  all_goals
    have hpc : t.pc.toNat ≤ 0xFFE := by
      by_contra habove
      cases hok.symm.trans (State.fetch_eq_outOfBounds (by omega))
    have hadvance := State.toNat_advance_pc hpc
    have hinv' := hinv.advance (by omega)
  · cases hstep
    exact hinv'.raise (by simp [Report.code])
  · exact hinv'.exec (by omega) (by omega) hstep

/-- Settles O54: by the event that is taken. -/
theorem everyStepKeepsTheInvariant : Obligations.EveryStepKeepsTheInvariant := by
  intro s u hinv hstep
  have htakes := s.takeEvent_takes
  generalize s.takeEvent.1 = e, s.takeEvent.2 = t at htakes
  have hinv := hinv.takes htakes
  cases e with
  | step k r => exact AboutToStep.inv (t := t.sample k r) ⟨k, r, t, htakes, rfl⟩ (hinv.sample k r) hstep
  | tick => cases (htakes.step_eq_of_done rfl).symm.trans hstep; exact hinv.tick
  | stop => cases (htakes.step_eq_of_done rfl).symm.trans hstep; exact hinv.stop
  | load bytes start => cases (htakes.step_eq_of_done rfl).symm.trans hstep; exact hinv.load bytes start
  | reset => cases (htakes.step_eq_of_done rfl).symm.trans hstep; exact State.Inv.hostReset t

/-! ### Outputs -/

/-- STATUS is the halted bit over the three bits of the code (R32). -/
theorem State.toNat_status (s : State) :
    s.status.toNat = (if s.halted = true then 8 else 0) + s.err.bits.toNat := by
  unfold State.status
  cases s.halted <;> cases s.err <;> rfl

/-- Every code but LoadError's is at most 4 (R200). -/
theorem ErrorCode.toNat_bits_le {c : ErrorCode} (h : c ≠ .loadError) : c.bits.toNat ≤ 4 := by
  cases c with
  | loadError => exact absurd rfl h
  | _ => decide

/-- Settles O60: the invariant excludes a stored LoadError; the numbers are the definition's. -/
theorem toneAndStatusOutputs : Obligations.ToneAndStatusOutputs := by
  refine ⟨fun s => ⟨s.tone_iff, s.toNat_status, fun hinv => ErrorCode.toNat_bits_le hinv.errNotLoad⟩, ?_⟩
  exact ⟨rfl, rfl, rfl, rfl, rfl, rfl⟩

end Sys2Proof.Machine
